-- ==== Sys2Proof/Word.lean ====
section
/-! DEFINITION. The widths of the machine (spec/00_scope.md R5): 8-bit registers, cells, operand bytes and flags, and a
9-bit program counter. -/

namespace Sys2Proof

/-- A register value, a memory cell, an operand byte or the flags register (R5, R11). -/
abbrev Byte := BitVec 8

/-- The program counter's width: 9 bits, so that it can hold 256, one past the last cell (R29). -/
abbrev PcWord := BitVec 9

end Sys2Proof
end

