-- ==== Sys2Proof/Syntax.lean ====
section
/-! DEFINITION. The instructions: one constructor per row of the fixed opcode table (spec/30_encoding.md R86), in the
table's order. An operand is the whole byte of the instruction (R83): a register index is not masked, so it may be 8 or
more, and what happens then is decided when the register is accessed. -/

namespace Sys2Proof

/-- The 34 rows of R86. `a` is operand A and `b` operand B, each the byte as it stands. The reserved rows IRET, INT and
LD carry no operand: the hardware consumes one byte for them (R85, R91, R152). -/
inductive Instr
  | nop
  | hlt
  | ret
  | iret
  | inc (a : Byte)
  | dec (a : Byte)
  | prn (a : Byte)
  | pra (a : Byte)
  | call (a : Byte)
  | int
  | jmp (a : Byte)
  | jeq (a : Byte)
  | jne (a : Byte)
  | jgt (a : Byte)
  | jlt (a : Byte)
  | jle (a : Byte)
  | jge (a : Byte)
  | not (a : Byte)
  | pop (a : Byte)
  | push (a : Byte)
  | ldi (a : Byte) (imm : Byte)
  | ld
  | st (a : Byte) (b : Byte)
  | add (a : Byte) (b : Byte)
  | sub (a : Byte) (b : Byte)
  | mul (a : Byte) (b : Byte)
  | div (a : Byte) (b : Byte)
  | mod (a : Byte) (b : Byte)
  | and (a : Byte) (b : Byte)
  | or (a : Byte) (b : Byte)
  | xor (a : Byte) (b : Byte)
  | shl (a : Byte) (b : Byte)
  | shr (a : Byte) (b : Byte)
  | cmp (a : Byte) (b : Byte)
  deriving DecidableEq, Repr

/-- The opcode of a row of R86, without its operands. -/
inductive Opcode
  | nop | hlt | ret | iret
  | inc | dec | prn | pra | call | int
  | jmp | jeq | jne | jgt | jlt | jle | jge
  | not | pop | push
  | ldi | ld | st
  | add | sub | mul | div | mod | and | or | xor | shl | shr | cmp
  deriving DecidableEq, Repr

/-- The classes the decoder tells apart (R85, R86). -/
inductive OpClass
  | alu | ldi | print | halt | nop | stack | call | ret | jump | unrecognized
  deriving DecidableEq, Repr

end Sys2Proof
end

