-- ==== Sys2Proof/Decode.lean ====
section
/-! DEFINITION. The instruction decoder (spec/30_encoding.md R80 to R94) and, after it, the encoder written from the same
table. Decoding is by whole-byte match against the fixed table (R81); no bit field of the opcode is used (R82). -/

namespace Sys2Proof

/-- The opcode of a byte, by the table in opcode order (R87); `none` for the 222 unassigned values (R90). -/
def Opcode.ofByte? (b : Byte) : Option Opcode :=
  match b.toNat with
  | 0x00 => some .nop
  | 0x01 => some .hlt
  | 0x11 => some .ret
  | 0x13 => some .iret
  | 0x45 => some .push
  | 0x46 => some .pop
  | 0x47 => some .prn
  | 0x48 => some .pra
  | 0x50 => some .call
  | 0x52 => some .int
  | 0x54 => some .jmp
  | 0x55 => some .jeq
  | 0x56 => some .jne
  | 0x57 => some .jgt
  | 0x58 => some .jlt
  | 0x59 => some .jle
  | 0x5A => some .jge
  | 0x65 => some .inc
  | 0x66 => some .dec
  | 0x69 => some .not
  | 0x82 => some .ldi
  | 0x83 => some .ld
  | 0x84 => some .st
  | 0xA0 => some .add
  | 0xA1 => some .sub
  | 0xA2 => some .mul
  | 0xA3 => some .div
  | 0xA4 => some .mod
  | 0xA7 => some .cmp
  | 0xA8 => some .and
  | 0xAA => some .or
  | 0xAB => some .xor
  | 0xAC => some .shl
  | 0xAD => some .shr
  | _ => none

/-- The "Class" column of R86; the three RESERVED rows have no dispatch arm and are UNRECOGNIZED (R85). -/
def Opcode.cls : Opcode → OpClass
  | .nop => .nop
  | .hlt => .halt
  | .ret => .ret
  | .iret | .int | .ld => .unrecognized
  | .inc | .dec | .not => .alu
  | .prn | .pra => .print
  | .call => .call
  | .jmp | .jeq | .jne | .jgt | .jlt | .jle | .jge => .jump
  | .pop | .push => .stack
  | .ldi => .ldi
  | .st | .add | .sub | .mul | .div | .mod | .and | .or | .xor | .shl | .shr | .cmp => .alu

/-- The "Operands" column of R86, as the source gives it. For the three reserved rows it is kept for the record only. -/
def Opcode.sourceOperands : Opcode → Nat
  | .nop | .hlt | .ret | .iret => 0
  | .inc | .dec | .prn | .pra | .call | .int => 1
  | .jmp | .jeq | .jne | .jgt | .jlt | .jle | .jge => 1
  | .not | .pop | .push => 1
  | .ldi | .ld | .st => 2
  | .add | .sub | .mul | .div | .mod | .and | .or | .xor | .shl | .shr | .cmp => 2

/-- How many operand bytes the hardware reads: the table's count, and none for a reserved row (R85, R94; C4). -/
def Opcode.operands (o : Opcode) : Nat :=
  if o.cls = .unrecognized then 0 else o.sourceOperands

/-- `decode(ir)`: the class and the operand count (R85), total on all 256 bytes. -/
def decodeOpcode (ir : Byte) : OpClass × Nat :=
  match Opcode.ofByte? ir with
  | some o => (o.cls, o.operands)
  | none => (.unrecognized, 0)

/-- The length in bytes of the unit an opcode byte starts (R94). -/
def unitLength (ir : Byte) : Nat := 1 + (decodeOpcode ir).2

/-- The instruction of an opcode and the operand bytes fetched for it; an opcode reads only the operands it has (R80). -/
def Opcode.build : Opcode → Byte → Byte → Instr
  | .nop, _, _ => .nop
  | .hlt, _, _ => .hlt
  | .ret, _, _ => .ret
  | .iret, _, _ => .iret
  | .inc, a, _ => .inc a
  | .dec, a, _ => .dec a
  | .prn, a, _ => .prn a
  | .pra, a, _ => .pra a
  | .call, a, _ => .call a
  | .int, _, _ => .int
  | .jmp, a, _ => .jmp a
  | .jeq, a, _ => .jeq a
  | .jne, a, _ => .jne a
  | .jgt, a, _ => .jgt a
  | .jlt, a, _ => .jlt a
  | .jle, a, _ => .jle a
  | .jge, a, _ => .jge a
  | .not, a, _ => .not a
  | .pop, a, _ => .pop a
  | .push, a, _ => .push a
  | .ldi, a, b => .ldi a b
  | .ld, _, _ => .ld
  | .st, a, b => .st a b
  | .add, a, b => .add a b
  | .sub, a, b => .sub a b
  | .mul, a, b => .mul a b
  | .div, a, b => .div a b
  | .mod, a, b => .mod a b
  | .and, a, b => .and a b
  | .or, a, b => .or a b
  | .xor, a, b => .xor a b
  | .shl, a, b => .shl a b
  | .shr, a, b => .shr a b
  | .cmp, a, b => .cmp a b

/-- Why the decoder gives no instruction. -/
inductive DecodeReject
  /-- There is no opcode byte to decode. -/
  | noBytes
  /-- The byte is in no row of R86 (R90). -/
  | unassigned (ir : Byte)
  /-- The operand bytes of this opcode are not all there. -/
  | truncated (ir : Byte)
  deriving DecidableEq, Repr

/-- What the decoder reads from a list of bytes: an instruction and the bytes after it, or a named rejection. -/
inductive Decoded
  | instr (i : Instr) (rest : List Byte)
  | reject (r : DecodeReject)
  deriving DecidableEq, Repr

/-- The instruction of an opcode that is in the table, from the bytes after the opcode byte. -/
def decodeOperands (ir : Byte) (o : Opcode) (bs : List Byte) : Decoded :=
  match o.operands, bs with
  | 0, rest => .instr (o.build 0#8 0#8) rest
  | 1, a :: rest => .instr (o.build a 0#8) rest
  | 2, a :: b :: rest => .instr (o.build a b) rest
  | _, _ => .reject (.truncated ir)

/-- The decoder, total on any bytes: opcode byte first, then operand A, then operand B, at ascending addresses (R56, R80). -/
def decode (bs : List Byte) : Decoded :=
  match bs with
  | [] => .reject .noBytes
  | ir :: rest =>
    match Opcode.ofByte? ir with
    | none => .reject (.unassigned ir)
    | some o => decodeOperands ir o rest

/-- Byte `k` of an instruction whose bits are `w`: a later byte's bits count on from the earlier one's. -/
def tableByte (nbits w k : Nat) : Byte := BitVec.ofNat 8 (w % 2 ^ nbits / 2 ^ (8 * k))

/-- The three bytes an instruction may have, laid out as the memory holds them; every bit above `nbits` is 0. -/
def tableBytes (nbits w : Nat) : List Byte := [tableByte nbits w 0, tableByte nbits w 1, tableByte nbits w 2]

/-- The instruction the decoder reads from a word numbered as the opcode table numbers it. -/
def decodeTableWord (nbits w : Nat) : Option Instr :=
  match decode (tableBytes nbits w) with
  | .instr i _ => some i
  | .reject _ => none

/-- The "Encoding (binary)" column of R86. -/
def Opcode.code : Opcode → Byte
  | .nop => 0b00000000#8
  | .hlt => 0b00000001#8
  | .ret => 0b00010001#8
  | .iret => 0b00010011#8
  | .inc => 0b01100101#8
  | .dec => 0b01100110#8
  | .prn => 0b01000111#8
  | .pra => 0b01001000#8
  | .call => 0b01010000#8
  | .int => 0b01010010#8
  | .jmp => 0b01010100#8
  | .jeq => 0b01010101#8
  | .jne => 0b01010110#8
  | .jgt => 0b01010111#8
  | .jlt => 0b01011000#8
  | .jle => 0b01011001#8
  | .jge => 0b01011010#8
  | .not => 0b01101001#8
  | .pop => 0b01000110#8
  | .push => 0b01000101#8
  | .ldi => 0b10000010#8
  | .ld => 0b10000011#8
  | .st => 0b10000100#8
  | .add => 0b10100000#8
  | .sub => 0b10100001#8
  | .mul => 0b10100010#8
  | .div => 0b10100011#8
  | .mod => 0b10100100#8
  | .and => 0b10101000#8
  | .or => 0b10101010#8
  | .xor => 0b10101011#8
  | .shl => 0b10101100#8
  | .shr => 0b10101101#8
  | .cmp => 0b10100111#8

/-- The opcode of an instruction. -/
def Instr.opcode : Instr → Opcode
  | .nop => .nop
  | .hlt => .hlt
  | .ret => .ret
  | .iret => .iret
  | .inc _ => .inc
  | .dec _ => .dec
  | .prn _ => .prn
  | .pra _ => .pra
  | .call _ => .call
  | .int => .int
  | .jmp _ => .jmp
  | .jeq _ => .jeq
  | .jne _ => .jne
  | .jgt _ => .jgt
  | .jlt _ => .jlt
  | .jle _ => .jle
  | .jge _ => .jge
  | .not _ => .not
  | .pop _ => .pop
  | .push _ => .push
  | .ldi _ _ => .ldi
  | .ld => .ld
  | .st _ _ => .st
  | .add _ _ => .add
  | .sub _ _ => .sub
  | .mul _ _ => .mul
  | .div _ _ => .div
  | .mod _ _ => .mod
  | .and _ _ => .and
  | .or _ _ => .or
  | .xor _ _ => .xor
  | .shl _ _ => .shl
  | .shr _ _ => .shr
  | .cmp _ _ => .cmp

/-- The operand bytes of an instruction, operand A first (R97). -/
def Instr.operandBytes : Instr → List Byte
  | .nop | .hlt | .ret | .iret | .int | .ld => []
  | .inc a | .dec a | .prn a | .pra a | .call a => [a]
  | .jmp a | .jeq a | .jne a | .jgt a | .jlt a | .jle a | .jge a => [a]
  | .not a | .pop a | .push a => [a]
  | .ldi a imm => [a, imm]
  | .st a b | .add a b | .sub a b | .mul a b | .div a b | .mod a b => [a, b]
  | .and a b | .or a b | .xor a b | .shl a b | .shr a b | .cmp a b => [a, b]

/-- The encoder: the bytes of an instruction in ascending addresses (R80, R97). -/
def encode (i : Instr) : List Byte := i.opcode.code :: i.operandBytes

/-- The upper-case mnemonic of R86 (R95). -/
def Opcode.mnemonic : Opcode → String
  | .nop => "NOP"
  | .hlt => "HLT"
  | .ret => "RET"
  | .iret => "IRET"
  | .inc => "INC"
  | .dec => "DEC"
  | .prn => "PRN"
  | .pra => "PRA"
  | .call => "CALL"
  | .int => "INT"
  | .jmp => "JMP"
  | .jeq => "JEQ"
  | .jne => "JNE"
  | .jgt => "JGT"
  | .jlt => "JLT"
  | .jle => "JLE"
  | .jge => "JGE"
  | .not => "NOT"
  | .pop => "POP"
  | .push => "PUSH"
  | .ldi => "LDI"
  | .ld => "LD"
  | .st => "ST"
  | .add => "ADD"
  | .sub => "SUB"
  | .mul => "MUL"
  | .div => "DIV"
  | .mod => "MOD"
  | .and => "AND"
  | .or => "OR"
  | .xor => "XOR"
  | .shl => "SHL"
  | .shr => "SHR"
  | .cmp => "CMP"

/-- The operands of an instruction as the assembly writes them: `R` and a decimal index, or a decimal literal (R95). -/
def Instr.operandText (i : Instr) : List String :=
  match i, i.operandBytes with
  | .ldi a imm, _ => ["R" ++ toString a.toNat, toString imm.toNat]
  | _, bytes => bytes.map fun a => "R" ++ toString a.toNat

/-- The assembly line of an instruction: mnemonic, then the operands separated by a comma, operand A first (R95). -/
def Instr.assembly (i : Instr) : String :=
  match i.operandText with
  | [] => i.opcode.mnemonic
  | operands => i.opcode.mnemonic ++ " " ++ ", ".intercalate operands

end Sys2Proof
end

