-- ==== Sys2Proof/Config.lean ====
section
/-! DEFINITION. The parameters of spec/00_scope.md R5, and the texts the spec leaves to an implementation
(spec/93_implementation_defined.md U6, U7, U8) as constants with no body: nothing can be proved of what they are. -/

namespace Sys2Proof

/-- `SP_INDEX`: the register the stack uses (R5, R22). -/
def Config.spIndex : Nat := 7

/-- `SP_RESET`: the reset value of register 7 (R5, R27). -/
def Config.spReset : Byte := 0xF4#8

/-- The default `MEM_CAPACITY` (R5, R50). -/
def Config.defaultCapacity : Nat := 256

/-- The largest admitted `MEM_CAPACITY` (R5, R51); the smallest is 1. -/
def Config.maxCapacity : Nat := 256

/-- What a cell holds that neither the loader nor the core has written (R46, R242). DESIGN CHOICE of the spec (D4), log 5. -/
def Config.unlistedByte : Byte := 0x00#8

/-- `LINE_TERMINATOR`: the one byte 0x0A (R5, R43, decision D21). -/
def Config.lineTerminator : Byte := 0x0A#8

/-- The text of `PrintChar v` for a `v` of 128 or more, which has no ASCII character (R44, U6): open, log 8. -/
opaque Config.renderChar : Byte → List Byte

/-- The diagnostic line for an unrecognized opcode, whose wording and radix are not given (R45, U7): open, log 8. -/
opaque Config.renderDiag : Byte → List Byte

/-- The wording of the fault message for a cause code and its info (R218, U8): open, log 9. -/
opaque Config.faultMessage : Nat → Nat → List Byte

end Sys2Proof
end

