-- ==== Sys2Proof/Machine/State.lean ====
section
/-! DEFINITION. The state of the machine: the tuple at the head of spec/10_state.md "and nothing else", as plain data;
the reasons a step can stop; and the state after reset (R46, R240). -/

namespace Sys2Proof.Machine

/-- `run` (R36). -/
inductive RunState
  /-- The core executes one step after another. -/
  | running
  /-- A HLT was executed. -/
  | halted
  /-- A fatal error was raised. -/
  | faulted
  deriving DecidableEq, Repr

/-- The fault record `(cause, info)` (R210): the cause, carrying its information. -/
inductive FaultCause
  /-- Code 1: a memory access at an address that is not a cell; the info is the address. -/
  | memOutOfBounds (addr : Nat)
  /-- Code 2: an access to a register index of 8 or more; the info is the index. -/
  | regOutOfBounds (index : Byte)
  /-- Code 3: DIV or MOD with a zero right-hand operand; the info is the opcode. -/
  | divideByZero (op : Byte)
  /-- Code 4: the alu block was handed a select it does not have; the info is the select. -/
  | unsupportedAluOp (op : Byte)
  deriving DecidableEq, Repr

/-- An event of the output stream (R42). -/
inductive OutputEvent
  /-- Emitted by PRN. -/
  | printNum (v : Byte)
  /-- Emitted by PRA. -/
  | printChar (v : Byte)
  /-- Emitted for an unrecognized opcode. -/
  | diag (ir : Byte)
  deriving DecidableEq, Repr

/-- The one memory (R50): its capacity `MEM_CAPACITY`, fixed at construction (R51, log 1), and its cells as address and byte
pairs with strictly rising addresses, where a cell that holds `Config.unlistedByte` is not listed. -/
structure Memory where
  capacity : Nat
  cells : List Host.Cell
  deriving DecidableEq, Repr

/-- The state of the core and its memory. -/
structure State where
  /-- The register file `x[0]` to `x[7]`; `x[7]` is the stack pointer (R20, R22). -/
  x : Vector Byte 8
  /-- The program counter (R28, R29). -/
  pc : PcWord
  /-- The flags register `FL`: bit 0 equal, bit 1 greater, bit 2 less (R32). -/
  fl : Byte
  /-- The memory (R50). -/
  mem : Memory
  /-- The run state (R36). -/
  run : RunState
  /-- The fault record, `none` while `run` is RUNNING or HALTED (R37). -/
  fault : Option FaultCause
  /-- The output events emitted since reset, oldest first (R42). -/
  out : List OutputEvent
  deriving DecidableEq, Repr

/-- Why `step` answers no next state. A fatal error of the spec is not one of these: it is taken, as a next state with
`run = FAULTED` and the record written (R214, log 2). -/
inductive Fault
  /-- Raised by `step` when `run` is HALTED: "When `run` is HALTED or FAULTED there is no step" (R140, R36). Safe. -/
  | coreHalted
  /-- Raised by `step` when `run` is FAULTED, with the record that `fault` holds (R140, R36). Safe. -/
  | coreFaulted (record : Option FaultCause)
  deriving DecidableEq, Repr

/-- Why an instruction has no meaning in the model. -/
inductive Refusal
  /-- Raised by `exec` for an instruction that has no meaning yet; no arm raises it. Safe. -/
  | notModelled (mnemonic : String)
  deriving DecidableEq, Repr

/-- A memory of the given capacity in which nothing has been written. -/
def Memory.empty (capacity : Nat) : Memory := { capacity := capacity, cells := [] }

/-- The machine right after reset (R46, R240), with a memory of the default capacity in which nothing has been written.
`x[0]` to `x[6]` are 0 by the spec's own decision D3 (log 4), unwritten cells read 0 by D4 (log 5). -/
def State.reset : State where
  x := #v[0x00#8, 0x00#8, 0x00#8, 0x00#8, 0x00#8, 0x00#8, 0x00#8, Config.spReset]
  pc := 0#9
  fl := 0x00#8
  mem := Memory.empty Config.defaultCapacity
  run := .running
  fault := none
  out := []

end Sys2Proof.Machine
end

