-- ==== Sys2Proof/Machine/Ops.lean ====
section
/-! DEFINITION. The named operations every meaning is written over: narrowing and extension (spec/00_scope.md R11, R12),
memory (spec/20_memory.md R53, R54), the field updates, output, the program counter update (spec/41_engine.md R146),
taking a fault (spec/60_exceptions.md R214), reset and launch (spec/70_reset_and_hazards.md R240 to R242). -/

namespace Sys2Proof.Machine

/-- `wrap8(v) = v mod 256` of an exact integer (R11). -/
def wrap8 (v : Int) : Byte := BitVec.ofInt 8 v

/-- `zext_9(v)`: the 8-bit value with bit 8 zero (R12). -/
def zext9 (v : Byte) : PcWord := BitVec.setWidth 9 v

/-! ### Memory -/

/-- The byte a list of cells gives an address: the listed one, else `Config.unlistedByte`. -/
def lookupCell (cells : List Host.Cell) (addr : Nat) : Byte :=
  match cells with
  | [] => Config.unlistedByte
  | c :: rest => if c.1 = addr then c.2 else lookupCell rest addr

/-- A cell in the canonical form: not listed when it holds what an unlisted address reads as. -/
def consCell (addr : Nat) (v : Byte) (rest : List Host.Cell) : List Host.Cell :=
  if v = Config.unlistedByte then rest else (addr, v) :: rest

/-- The cells after `v` is put at `addr`, keeping the addresses strictly rising. -/
def insertCell (cells : List Host.Cell) (addr : Nat) (v : Byte) : List Host.Cell :=
  match cells with
  | [] => consCell addr v []
  | c :: rest =>
    if c.1 < addr then c :: insertCell rest addr v
    else if c.1 = addr then consCell addr v rest
    else consCell addr v (c :: rest)

/-- `MemRead(addr, 1)`: the byte at `addr`, or MemOutOfBounds(addr) (R53). A read changes nothing. -/
def memRead (m : Memory) (addr : Nat) : Except FaultCause Byte :=
  if addr < m.capacity then .ok (lookupCell m.cells addr) else .error (.memOutOfBounds addr)

/-- `MemWrite(addr, 1, v)`: the memory with `v` at `addr`, or MemOutOfBounds(addr) (R54). -/
def memWrite (m : Memory) (addr : Nat) (v : Byte) : Except FaultCause Memory :=
  if addr < m.capacity then .ok { m with cells := insertCell m.cells addr v } else .error (.memOutOfBounds addr)

/-- Addresses strictly rise from above `low`, lie below `capacity`, and no cell holds the unlisted byte. -/
def cellsOk (capacity : Nat) (low : Nat) : List Host.Cell → Bool
  | [] => true
  | c :: rest =>
    decide (low ≤ c.1) && decide (c.1 < capacity) && decide (c.2 ≠ Config.unlistedByte) && cellsOk capacity (c.1 + 1) rest

/-- The memory is one the hardware may have: an admitted capacity (R51) and cells in the canonical form. -/
def Memory.wf (m : Memory) : Bool :=
  decide (1 ≤ m.capacity) && decide (m.capacity ≤ Config.maxCapacity) && cellsOk m.capacity 0 m.cells

/-! ### Field updates -/

/-- Register `r` of the register file (R20). -/
def State.reg (s : State) (r : Fin 8) : Byte := s.x[r.val]

/-- The state with register `r` holding `v` and no other register changed (R24). -/
def State.setReg (s : State) (r : Fin 8) (v : Byte) : State := { s with x := s.x.set r.val v }

/-- The index of the stack pointer, register 7 (R22). -/
def spReg : Fin 8 := ⟨Config.spIndex, by decide⟩

/-- `SP`, the register `x[7]` (R12, R22). -/
def State.sp (s : State) : Byte := s.reg spReg

/-- `SP <- v` (R12). -/
def State.setSp (s : State) (v : Byte) : State := s.setReg spReg v

/-- `pc <- v` (R12). -/
def State.setPc (s : State) (v : PcWord) : State := { s with pc := v }

/-- `FL <- v` (R12). -/
def State.setFl (s : State) (v : Byte) : State := { s with fl := v }

/-- The state with another memory. -/
def State.setMem (s : State) (m : Memory) : State := { s with mem := m }

/-- `emit(e)`: append `e` at the end of `out`; total, since output never blocks and never fails (R42, R173). -/
def State.emit (s : State) (e : OutputEvent) : State := { s with out := s.out ++ [e] }

/-- `halt`: `run <- HALTED` (R12, R148). -/
def State.halt (s : State) : State := { s with run := .halted }

/-! ### Program counter update -/

/-- `pc_next(pc, n, taken, target)` (R146): the target, zero-extended and unchecked (R147), when the transfer is taken, else
past the opcode and its `n` operand bytes. -/
def pcNext (pc : PcWord) (n : Nat) (taken : Bool) (target : Byte) : PcWord :=
  if taken then zext9 target else pc + BitVec.ofNat 9 (n + 1)

/-- The state past an instruction of `n` operand bytes that takes no transfer. -/
def State.advance (s : State) (n : Nat) : State := s.setPc (pcNext s.pc n false 0#8)

/-- The state after a taken transfer to `target`, which does not also advance (R147). -/
def State.transfer (s : State) (n : Nat) (target : Byte) : State := s.setPc (pcNext s.pc n true target)

/-! ### Taking a fault -/

/-- Fault entry (R214, R215): from the state BEFORE the faulting instruction, which is void, `run <- FAULTED` and
`fault <- (cause, info)`; `pc` keeps the address of the faulting opcode and nothing else changes. There is no return
from a fault (R216). -/
def raise (c : FaultCause) (s : State) : State := { s with run := .faulted, fault := some c }

/-- The outcome of an instruction's pseudocode run on `s`: all its writes, or the fault it raised and none of them (R12). -/
def settle (s : State) (r : Except FaultCause State) : Host.Outcome State Fault Refusal :=
  match r with
  | .ok t => .next t
  | .error c => .next (raise c s)

/-- The numeric code of a cause (R210, decision D19). -/
def FaultCause.code : FaultCause → Nat
  | .memOutOfBounds _ => 1
  | .regOutOfBounds _ => 2
  | .divideByZero _ => 3
  | .unsupportedAluOp _ => 4

/-- The `info` of a fault record as a number (R210). -/
def FaultCause.info : FaultCause → Nat
  | .memOutOfBounds addr => addr
  | .regOutOfBounds i => i.toNat
  | .divideByZero op => op.toNat
  | .unsupportedAluOp op => op.toNat

/-- `exit_status` (R217): none while RUNNING, 0 when HALTED, the cause code when FAULTED. -/
def State.exitStatus (s : State) : Option Nat :=
  match s.run with
  | .running => none
  | .halted => some 0
  | .faulted => s.fault.map FaultCause.code

/-- The fault message a FAULTED core ends with; its wording is open (R218). -/
def State.faultMessage (s : State) : Option (List Byte) :=
  s.fault.map fun c => Config.faultMessage c.code c.info

/-! ### Reset and launch -/

/-- Asserting `reset` (R240): every piece of the core's state at its reset value, whatever it was; the core's reset does not
write memory (R241). -/
def assertReset (s : State) : State := { State.reset with mem := s.mem }

/-- The memory with the bytes put at `addr` and up; a byte whose address is not a cell is dropped. -/
def placeBytes (m : Memory) (addr : Nat) (bytes : List Byte) : Memory :=
  match bytes with
  | [] => m
  | v :: rest =>
    match memWrite m addr v with
    | .ok m' => placeBytes m' (addr + 1) rest
    | .error _ => placeBytes m (addr + 1) rest

/-- A launch (R242, R245): zeroed memory of the given capacity, the image at address 0, and reset. A capacity outside 1 to 256
(D1, U12) and an image longer than the capacity are refused. -/
def boot (capacity : Nat) (image : List Byte) : Option State :=
  if 1 ≤ capacity ∧ capacity ≤ Config.maxCapacity ∧ image.length ≤ capacity then
    some { State.reset with mem := placeBytes (Memory.empty capacity) 0 image }
  else none

end Sys2Proof.Machine
end

