-- ==== Sys2Proof/Machine/Operands.lean ====
section
/-! DEFINITION. The operand forms (spec/30_encoding.md R83): a register index, read and written with the bounds check of
spec/10_state.md R23 and R24, and LDI's literal, which is the byte as it stands. -/

namespace Sys2Proof.Machine

/-- The register an operand byte names, or RegOutOfBounds: the whole byte is compared with 8, it is not masked (R23, R83). -/
def regIndex (i : Byte) : Except FaultCause (Fin 8) :=
  if h : i.toNat < 8 then .ok ⟨i.toNat, h⟩ else .error (.regOutOfBounds i)

/-- The operand byte that names a register: its index (R83, R95). -/
def regByte (r : Fin 8) : Byte := BitVec.ofNat 8 r.val

/-- `x[i]`, `reg_read(i)` (R23). -/
def regRead (s : State) (i : Byte) : Except FaultCause Byte := do
  let r ← regIndex i
  return s.reg r

/-- `x[i] <- v`, `reg_write(i, v)` (R24). -/
def regWrite (s : State) (i : Byte) (v : Byte) : Except FaultCause State := do
  let r ← regIndex i
  return s.setReg r v

/-- A literal operand: the unsigned 8-bit byte, not extended, scaled or shifted (R83, R170). -/
def literal (b : Byte) : Byte := b

end Sys2Proof.Machine
end

