-- ==== Sys2Proof/Machine/Flags.lean ====
section
/-! DEFINITION. The flags register: its fields (spec/10_state.md R32), the value CMP writes (spec/40_alu.md R110, R124) and
the condition function of the jumps (spec/44_control_transfer.md R190). -/

namespace Sys2Proof.Machine

/-- E, bit 0 of `FL`: the last CMP found its registers equal (R32). -/
def flagE (fl : Byte) : Bool := fl.getLsbD 0

/-- G, bit 1 of `FL`: the last CMP found its first register greater (R32). -/
def flagG (fl : Byte) : Bool := fl.getLsbD 1

/-- L, bit 2 of `FL`: the last CMP found its first register less (R32). -/
def flagL (fl : Byte) : Bool := fl.getLsbD 2

/-- The whole `FL` byte CMP writes for an unsigned comparison (R124). -/
def compareFlags (a b : Byte) : Byte :=
  if a.toNat = b.toNat then 0b00000001#8
  else if a.toNat < b.toNat then 0b00000100#8
  else 0b00000010#8

/-- `cond(ir, FL)`: whether the jump with this opcode is taken (R190). No other opcode is a conditional transfer. -/
def cond (ir : Byte) (fl : Byte) : Bool :=
  match ir.toNat with
  | 0x54 => true
  | 0x55 => flagE fl
  | 0x56 => !flagE fl
  | 0x57 => flagG fl
  | 0x58 => flagL fl
  | 0x59 => flagE fl || flagL fl
  | 0x5A => flagE fl || flagG fl
  | _ => false

end Sys2Proof.Machine
end

