-- ==== Sys2Proof/Machine/Alu.lean ====
section
/-! DEFINITION. The alu block (spec/40_alu.md R110) and the engine's ALU dispatch arm (R126). -/

namespace Sys2Proof.Machine

/-- What the alu block returns (R110): `result` is the value to write back, `none` where `write_back` is false; `flags` is
the new `FL`, `none` where `write_flags` is false. The value nobody reads has no place (log 10). -/
structure AluOut where
  result : Option Byte
  flags : Option Byte
  deriving DecidableEq, Repr

/-- An operation that writes `v` back and no flags. -/
def AluOut.value (v : Byte) : AluOut := { result := some v, flags := none }

/-- The shift of `a` left by the whole count `c`: 0 for a count of 8 or more (R122, decision D7). -/
def shiftLeft (a c : Byte) : Byte := if 8 ≤ c.toNat then 0#8 else wrap8 (a.toNat * 2 ^ c.toNat)

/-- The logical shift of `a` right by the whole count `c`: 0 for a count of 8 or more (R123, decision D7). -/
def shiftRight (a c : Byte) : Byte := if 8 ≤ c.toNat then 0#8 else wrap8 (a.toNat / 2 ^ c.toNat : Nat)

/-- `alu(op, a, b)` (R110): the operation select is the opcode byte (decision D26); everything is unsigned. -/
def alu (op a b : Byte) : Except FaultCause AluOut :=
  match op.toNat with
  | 0xA0 => .ok (.value (wrap8 (a.toNat + b.toNat)))
  | 0xA1 => .ok (.value (wrap8 (a.toNat - b.toNat)))
  | 0xA2 => .ok (.value (wrap8 (a.toNat * b.toNat)))
  | 0xA3 => if b.toNat = 0 then .error (.divideByZero op) else .ok (.value (wrap8 (a.toNat / b.toNat : Nat)))
  | 0xA4 => if b.toNat = 0 then .error (.divideByZero op) else .ok (.value (wrap8 (a.toNat % b.toNat : Nat)))
  | 0x65 => .ok (.value (wrap8 (a.toNat + 1)))
  | 0x66 => .ok (.value (wrap8 (a.toNat - 1)))
  | 0xA8 => .ok (.value (a &&& b))
  | 0xAA => .ok (.value (a ||| b))
  | 0xAB => .ok (.value (a ^^^ b))
  | 0x69 => .ok (.value (wrap8 (255 - a.toNat)))
  | 0xAC => .ok (.value (shiftLeft a b))
  | 0xAD => .ok (.value (shiftRight a b))
  | 0xA7 => .ok { result := none, flags := some (compareFlags a b) }
  | 0x84 => .ok (.value b)
  | _ => .error (.unsupportedAluOp op)

/-- `if wb then x[opA] <- r`, then `if wf then FL <- f` (R126). -/
def writeAluOut (s : State) (opA : Byte) (out : AluOut) : Except FaultCause State := do
  let s1 ← match out.result with
    | some r => regWrite s opA r
    | none => .ok s
  return match out.flags with
    | some f => s1.setFl f
    | none => s1

/-- The binary arm of R126: both registers are read before the ALU is invoked, `opA` first (decision D23). -/
def aluBinary (op opA opB : Byte) (s : State) : Except FaultCause State := do
  let a ← regRead s opA
  let b ← regRead s opB
  let out ← alu op a b
  let s1 ← writeAluOut s opA out
  return s1.advance 2

/-- The unary arm of R126, for INC, DEC and NOT; the ALU's second input is ignored (R110). -/
def aluUnary (op opA : Byte) (s : State) : Except FaultCause State := do
  let a ← regRead s opA
  let out ← alu op a 0#8
  let s1 ← writeAluOut s opA out
  return s1.advance 1

end Sys2Proof.Machine
end

