-- ==== Sys2Proof/Machine/Arithmetic.lean ====
section
/-! DEFINITION. The arithmetic instructions (spec/40_alu.md R111 to R117). -/

namespace Sys2Proof.Machine

/-- ADD: `x[opA] <- wrap8(x[opA] + x[opB]); pc <- pc + 3` (R111). -/
def execAdd (a b : Byte) (s : State) : Host.Outcome State Fault Refusal := settle s (aluBinary 0xA0#8 a b s)

/-- SUB: `x[opA] <- wrap8(x[opA] - x[opB]); pc <- pc + 3` (R112). -/
def execSub (a b : Byte) (s : State) : Host.Outcome State Fault Refusal := settle s (aluBinary 0xA1#8 a b s)

/-- MUL: `x[opA] <- wrap8(x[opA] * x[opB]); pc <- pc + 3` (R113). -/
def execMul (a b : Byte) (s : State) : Host.Outcome State Fault Refusal := settle s (aluBinary 0xA2#8 a b s)

/-- DIV: the unsigned integer quotient, or DivideByZero(0xA3) (R114). -/
def execDiv (a b : Byte) (s : State) : Host.Outcome State Fault Refusal := settle s (aluBinary 0xA3#8 a b s)

/-- MOD: the unsigned remainder, or DivideByZero(0xA4) (R115). -/
def execMod (a b : Byte) (s : State) : Host.Outcome State Fault Refusal := settle s (aluBinary 0xA4#8 a b s)

/-- INC: `x[opA] <- wrap8(x[opA] + 1); pc <- pc + 2` (R116). -/
def execInc (a : Byte) (s : State) : Host.Outcome State Fault Refusal := settle s (aluUnary 0x65#8 a s)

/-- DEC: `x[opA] <- wrap8(x[opA] - 1); pc <- pc + 2` (R117). -/
def execDec (a : Byte) (s : State) : Host.Outcome State Fault Refusal := settle s (aluUnary 0x66#8 a s)

end Sys2Proof.Machine
end

