-- ==== Sys2Proof/Machine/Stack.lean ====
section
/-! DEFINITION. The stack pointer logic and PUSH, POP (spec/43_stack.md). -/

namespace Sys2Proof.Machine

/-- The address a push writes: `wrap8(SP - 1)` (R180, R63). -/
def pushAddr (s : State) : Nat := (wrap8 (s.sp.toNat - 1)).toNat

/-- `push(v)`: write at `wrap8(SP - 1)`, then `SP` takes that address (R180). -/
def push (v : Byte) (s : State) : Except FaultCause State := do
  let m ← memWrite s.mem (pushAddr s) v
  return (s.setMem m).setSp (wrap8 (s.sp.toNat - 1))

/-- `pop()`: the byte at `SP`, and the state with `SP` one higher, modulo 256; the cell keeps its value (R181). -/
def pop (s : State) : Except FaultCause (Byte × State) := do
  let v ← memRead s.mem s.sp.toNat
  return (v, s.setSp (wrap8 (s.sp.toNat + 1)))

/-- PUSH: the register is read before `SP` moves (R182, decision D14). -/
def pushRegister (opA : Byte) (s : State) : Except FaultCause State := do
  let v ← regRead s opA
  let s1 ← push v s
  return s1.advance 1

/-- PUSH (R182). -/
def execPush (a : Byte) (s : State) : Host.Outcome State Fault Refusal := settle s (pushRegister a s)

/-- POP: the register is written after `SP` is incremented (R183, decision D15). -/
def popRegister (opA : Byte) (s : State) : Except FaultCause State := do
  let (v, s1) ← pop s
  let s2 ← regWrite s1 opA v
  return s2.advance 1

/-- POP (R183). -/
def execPop (a : Byte) (s : State) : Host.Outcome State Fault Refusal := settle s (popRegister a s)

end Sys2Proof.Machine
end

