-- ==== Sys2Proof/Machine/Control.lean ====
section
/-! DEFINITION. Control transfer: the seven jumps, CALL and RET (spec/44_control_transfer.md). -/

namespace Sys2Proof.Machine

/-- The common form of the seven jumps (R204): the register is read, and so checked, only when the jump is taken (R193). -/
def jump (op opA : Byte) (s : State) : Except FaultCause State :=
  if cond op s.fl then do
    let t ← regRead s opA
    return s.transfer 1 t
  else .ok (s.advance 1)

/-- JMP (R194). -/
def execJmp (a : Byte) (s : State) : Host.Outcome State Fault Refusal := settle s (jump 0x54#8 a s)

/-- JEQ (R195). -/
def execJeq (a : Byte) (s : State) : Host.Outcome State Fault Refusal := settle s (jump 0x55#8 a s)

/-- JNE (R196). -/
def execJne (a : Byte) (s : State) : Host.Outcome State Fault Refusal := settle s (jump 0x56#8 a s)

/-- JGT (R197). -/
def execJgt (a : Byte) (s : State) : Host.Outcome State Fault Refusal := settle s (jump 0x57#8 a s)

/-- JLT (R198). -/
def execJlt (a : Byte) (s : State) : Host.Outcome State Fault Refusal := settle s (jump 0x58#8 a s)

/-- JLE (R199). -/
def execJle (a : Byte) (s : State) : Host.Outcome State Fault Refusal := settle s (jump 0x59#8 a s)

/-- JGE (R200). -/
def execJge (a : Byte) (s : State) : Host.Outcome State Fault Refusal := settle s (jump 0x5A#8 a s)

/-- The return address CALL pushes: `wrap8(pc + 2)` (R191, R55). -/
def returnAddress (s : State) : Byte := wrap8 (s.pc.toNat + 2)

/-- CALL: push the return address, then read the target register (R191, decision D16). -/
def callRegister (opA : Byte) (s : State) : Except FaultCause State := do
  let s1 ← push (returnAddress s) s
  let t ← regRead s1 opA
  return s1.transfer 1 t

/-- CALL (R191). -/
def execCall (a : Byte) (s : State) : Host.Outcome State Fault Refusal := settle s (callRegister a s)

/-- `t <- pop(); pc <- zext_9(t)` (R192). -/
def returnFromCall (s : State) : Except FaultCause State := do
  let (t, s1) ← pop s
  return s1.transfer 0 t

/-- RET (R192). -/
def execRet (s : State) : Host.Outcome State Fault Refusal := settle s (returnFromCall s)

end Sys2Proof.Machine
end

