-- ==== Sys2Proof/Machine/Engine.lean ====
section
/-! DEFINITION. The instructions that belong to no other family (spec/41_engine.md R148 to R152): NOP, HLT, the reserved
opcodes IRET, INT and LD, and the arm every unrecognized opcode byte takes. -/

namespace Sys2Proof.Machine

/-- NOP: `pc <- pc + 1` and nothing else (R149, decision D8). -/
def execNop (s : State) : Host.Outcome State Fault Refusal := settle s (.ok (s.advance 0))

/-- HLT: `run <- HALTED`; `pc` is not written (R148, decision D20). -/
def execHlt (s : State) : Host.Outcome State Fault Refusal := settle s (.ok s.halt)

/-- The unrecognized arm: `emit(Diag(ir)); pc <- pc + 1`, no operand read (R150, decision D11). -/
def unrecognized (ir : Byte) (s : State) : State := (s.emit (.diag ir)).advance 0

/-- A byte of the 222 unassigned values, fetched as an opcode (R90, R150). -/
def execUnassigned (ir : Byte) (s : State) : Host.Outcome State Fault Refusal := settle s (.ok (unrecognized ir s))

/-- IRET, reserved: exactly the unrecognized arm, nothing is popped (R152, decision D10). -/
def execIret (s : State) : Host.Outcome State Fault Refusal := settle s (.ok (unrecognized 0x13#8 s))

/-- INT, reserved: exactly the unrecognized arm, no interrupt is raised (R152, decision D10). -/
def execInt (s : State) : Host.Outcome State Fault Refusal := settle s (.ok (unrecognized 0x52#8 s))

/-- LD, reserved: exactly the unrecognized arm, memory is not read as data (R152, decision D10). -/
def execLd (s : State) : Host.Outcome State Fault Refusal := settle s (.ok (unrecognized 0x83#8 s))

end Sys2Proof.Machine
end

