-- ==== Sys2Proof/Machine/Logic.lean ====
section
/-! DEFINITION. The bitwise operations, shifts, compare and copy (spec/40_alu.md R118 to R125). -/

namespace Sys2Proof.Machine

/-- AND, bit by bit (R118). -/
def execAnd (a b : Byte) (s : State) : Host.Outcome State Fault Refusal := settle s (aluBinary 0xA8#8 a b s)

/-- OR, bit by bit (R119). -/
def execOr (a b : Byte) (s : State) : Host.Outcome State Fault Refusal := settle s (aluBinary 0xAA#8 a b s)

/-- XOR, bit by bit (R120). -/
def execXor (a b : Byte) (s : State) : Host.Outcome State Fault Refusal := settle s (aluBinary 0xAB#8 a b s)

/-- NOT: every one of the 8 bits inverted (R121). -/
def execNot (a : Byte) (s : State) : Host.Outcome State Fault Refusal := settle s (aluUnary 0x69#8 a s)

/-- SHL: `x[opA]` shifted left by `x[opB]` (R122). -/
def execShl (a b : Byte) (s : State) : Host.Outcome State Fault Refusal := settle s (aluBinary 0xAC#8 a b s)

/-- SHR: `x[opA]` shifted right, logically, by `x[opB]` (R123). -/
def execShr (a b : Byte) (s : State) : Host.Outcome State Fault Refusal := settle s (aluBinary 0xAD#8 a b s)

/-- CMP: the whole `FL` byte from the unsigned comparison of the two registers; no register is written (R124). -/
def execCmp (a b : Byte) (s : State) : Host.Outcome State Fault Refusal := settle s (aluBinary 0xA7#8 a b s)

/-- ST: `x[opA] <- x[opB]`, a register copy that does not touch memory (R125, C3, decision D9). -/
def execSt (a b : Byte) (s : State) : Host.Outcome State Fault Refusal := settle s (aluBinary 0x84#8 a b s)

end Sys2Proof.Machine
end

