-- ==== Sys2Proof/Machine/Output.lean ====
section
/-! DEFINITION. Immediate load and output (spec/42_load_immediate_and_output.md), and the text of an output event as far as
the spec fixes it (spec/10_state.md R43 to R45). -/

namespace Sys2Proof.Machine

/-- `x[opA] <- opB; pc <- pc + 3` (R170). -/
def loadImmediate (opA imm : Byte) (s : State) : Except FaultCause State := do
  let s1 ← regWrite s opA (literal imm)
  return s1.advance 2

/-- LDI (R170). -/
def execLdi (a imm : Byte) (s : State) : Host.Outcome State Fault Refusal := settle s (loadImmediate a imm s)

/-- Emit the event made of the register's value, then `pc <- pc + 2` (R171, R172). -/
def printRegister (event : Byte → OutputEvent) (opA : Byte) (s : State) : Except FaultCause State := do
  let v ← regRead s opA
  return (s.emit (event v)).advance 1

/-- PRN: `emit(PrintNum(x[opA]))` (R171). -/
def execPrn (a : Byte) (s : State) : Host.Outcome State Fault Refusal := settle s (printRegister .printNum a s)

/-- PRA: `emit(PrintChar(x[opA]))` (R172). -/
def execPra (a : Byte) (s : State) : Host.Outcome State Fault Refusal := settle s (printRegister .printChar a s)

/-- The ASCII digit of a number below 10. -/
def digitChar (d : Nat) : Byte := BitVec.ofNat 8 (0x30 + d)

/-- The decimal digits of an 8-bit value: no sign, no leading zeros, no padding (R43). -/
def decimalText (v : Byte) : List Byte :=
  let n := v.toNat
  if n < 10 then [digitChar n]
  else if n < 100 then [digitChar (n / 10), digitChar (n % 10)]
  else [digitChar (n / 100), digitChar (n / 10 % 10), digitChar (n % 10)]

/-- The text of an event (R43 to R45). A PRN or PRA text ends with the line terminator; the text of a value with no ASCII
character and the whole diagnostic line are open (log 8). -/
def OutputEvent.render : OutputEvent → List Byte
  | .printNum v => decimalText v ++ [Config.lineTerminator]
  | .printChar v => (if v.toNat < 128 then [v] else Config.renderChar v) ++ [Config.lineTerminator]
  | .diag ir => Config.renderDiag ir

/-- The text of the output stream: every event in the one stream, in program order (R45, R173). -/
def State.outputText (s : State) : List Byte := s.out.flatMap OutputEvent.render

end Sys2Proof.Machine
end

