-- ==== Sys2Proof/Machine/Fetch.lean ====
section
/-! DEFINITION. The fetch unit (spec/41_engine.md R141, R142): the opcode byte at `pc`, then exactly the operand bytes the
decoder reports, operand A before operand B. -/

namespace Sys2Proof.Machine

/-- What a step has fetched: an instruction of the table, or a byte that is in no row of it. -/
inductive Fetched
  | instr (i : Instr)
  | unassigned (ir : Byte)
  deriving DecidableEq, Repr

/-- The operand bytes at `pc + 1` and `pc + 2`, read when the opcode has them (R142). Addresses are integers and do not wrap
(R53, R57). A byte the opcode does not have is not read, and `Opcode.build` does not use it. -/
def fetchOperands (s : State) (n : Nat) : Except FaultCause (Byte × Byte) := do
  let opA ← if 1 ≤ n then memRead s.mem (s.pc.toNat + 1) else .ok 0#8
  let opB ← if 2 ≤ n then memRead s.mem (s.pc.toNat + 2) else .ok 0#8
  return (opA, opB)

/-- Opcode fetch, decode and operand fetch (R140 to R143). -/
def fetch (s : State) : Except FaultCause Fetched := do
  let ir ← memRead s.mem s.pc.toNat
  match Opcode.ofByte? ir with
  | none => return .unassigned ir
  | some o =>
    let (opA, opB) ← fetchOperands s (decodeOpcode ir).2
    return .instr (o.build opA opB)

end Sys2Proof.Machine
end

