-- ==== Sys2Proof/Machine/Step.lean ====
section
/-! DEFINITION. The step of the core (spec/41_engine.md R140). -/

namespace Sys2Proof.Machine

/-- One step (R140): defined only while `run` is RUNNING; fetch, decode, operand fetch, then the arm of the class. A fault at
the fetch is taken like any other, before any part of the arm runs (R142, R214). -/
def step (s : State) : Host.Outcome State Fault Refusal :=
  match s.run with
  | .halted => .fault .coreHalted
  | .faulted => .fault (.coreFaulted s.fault)
  | .running =>
    match fetch s with
    | .error c => .next (raise c s)
    | .ok (.instr i) => exec i s
    | .ok (.unassigned ir) => execUnassigned ir s

/-- The state with one instruction's bytes stored at `pc`, numbered as the opcode table numbers them: three bytes, those above
`nbits` zero. Nothing else changes, so `step` runs it when `run` is RUNNING and the cells exist, as they do at reset. -/
def State.withFetchWord (s : State) (nbits w : Nat) : State :=
  s.setMem (placeBytes s.mem s.pc.toNat (tableBytes nbits w))

end Sys2Proof.Machine
end

