-- ==== Sys2Proof/WellFormed.lean ====
section
/-! DEFINITION. Well-formedness of an instruction: every register index it carries is one of the eight registers
(spec/30_encoding.md R83, "It is valid when less than 8"; R95, a register operand is `R0` to `R7`). LDI's literal is any
byte. The machine does not refuse an ill-formed instruction: it runs it and raises RegOutOfBounds when the register is
accessed (R84); see log 15. -/

namespace Sys2Proof

/-- A register index of an instruction is valid when it is less than 8 (R83). -/
def regIndexOk (i : Byte) : Bool := decide (i.toNat < 8)

/-- Every register index of the instruction is valid. -/
def Instr.wellFormed : Instr → Bool
  | .nop | .hlt | .ret | .iret | .int | .ld => true
  | .inc a | .dec a | .prn a | .pra a | .call a => regIndexOk a
  | .jmp a | .jeq a | .jne a | .jgt a | .jlt a | .jle a | .jge a => regIndexOk a
  | .not a | .pop a | .push a => regIndexOk a
  | .ldi a _ => regIndexOk a
  | .st a b | .add a b | .sub a b | .mul a b | .div a b | .mod a b => regIndexOk a && regIndexOk b
  | .and a b | .or a b | .xor a b | .shl a b | .shr a b | .cmp a b => regIndexOk a && regIndexOk b

end Sys2Proof
end

