-- ==== Sys2Proof/Safety.lean ====
section
/-! DEFINITION. The terms the claims are stated in: the invariant of the machine, what a state keeps of an earlier one (the
frame of an instruction, read through the model's own read of one byte), and how an instruction ends. -/

namespace Sys2Proof.Machine

/-! ### The invariant -/

/-- The only values `FL` ever holds (R32). -/
def flagsLegal (fl : Byte) : Prop := fl = 0b00000000#8 ∨ fl = 0b00000001#8 ∨ fl = 0b00000010#8 ∨ fl = 0b00000100#8

/-- A fault record a step can write (R210): an address that is not a cell and is at most 256, an index of 8 or more, the
opcode of DIV or MOD; a step never writes UnsupportedAluOp (R93). -/
def FaultCause.legal (capacity : Nat) : FaultCause → Prop
  | .memOutOfBounds addr => capacity ≤ addr ∧ addr ≤ 256
  | .regOutOfBounds i => 8 ≤ i.toNat
  | .divideByZero op => op = 0xA3#8 ∨ op = 0xA4#8
  | .unsupportedAluOp _ => False

/-- What every state of the hardware satisfies: an admitted memory (R51) in the model's own canonical form (log 5), a `pc` of
at most 256 (R29), a legal `FL` (R32), a fault record exactly when FAULTED (R37), and a record a step can write (R210). -/
structure State.Inv (s : State) : Prop where
  memory : s.mem.wf = true
  pcRange : s.pc.toNat ≤ 256
  flags : flagsLegal s.fl
  record : s.run = .faulted ↔ s.fault ≠ none
  recordLegal : ∀ c, s.fault = some c → c.legal s.mem.capacity

/-! ### Frames -/

/-- Every byte of memory reads as before, the addresses that are not cells included. -/
def MemSame (s t : State) : Prop := ∀ addr, memRead t.mem addr = memRead s.mem addr

/-- Every byte of memory but the one at `a` reads as before. -/
def MemSameBut (s t : State) (a : Nat) : Prop := ∀ addr, addr ≠ a → memRead t.mem addr = memRead s.mem addr

/-- Every register that is not in `written` holds what it held. -/
def RegsSameBut (s t : State) (written : List (Fin 8)) : Prop := ∀ r, r ∉ written → t.reg r = s.reg r

/-- The run state, the fault record and the output stream are unchanged. -/
def StatusSame (s t : State) : Prop := t.run = s.run ∧ t.fault = s.fault ∧ t.out = s.out

/-- `t` follows `s` by an instruction of `len` bytes that transfers nowhere, stores nothing, prints nothing and writes no
register but those in `written`. Whether it writes `FL` is said beside it. -/
structure RegisterForm (s t : State) (written : List (Fin 8)) (len : Nat) : Prop where
  regs : RegsSameBut s t written
  pc : t.pc = s.pc + BitVec.ofNat 9 len
  mem : MemSame s t
  status : StatusSame s t

/-- `t` differs from `s` in `pc` only. -/
structure OnlyPc (s t : State) : Prop where
  regs : RegsSameBut s t []
  fl : t.fl = s.fl
  mem : MemSame s t
  status : StatusSame s t

/-- `t` differs from `s` in `run` and `fault` only, and they say that `c` was raised (R214). -/
structure VoidWith (s t : State) (c : FaultCause) : Prop where
  regs : RegsSameBut s t []
  pc : t.pc = s.pc
  fl : t.fl = s.fl
  mem : MemSame s t
  out : t.out = s.out
  run : t.run = .faulted
  fault : t.fault = some c

/-! ### Encodings -/

/-- The bytes of a binary instruction: its opcode byte, operand A, operand B, for any operand bytes (R86, R97). -/
def BinaryBytes (mk : Byte → Byte → Instr) (op : Byte) : Prop := ∀ a b, encode (mk a b) = [op, a, b]

/-- The bytes of a unary instruction: its opcode byte, operand A (R86, R97). -/
def UnaryBytes (mk : Byte → Instr) (op : Byte) : Prop := ∀ a, encode (mk a) = [op, a]

/-! ### How an instruction ends -/

/-- The instruction raises the fault `c`: `run` becomes FAULTED and `fault` becomes its record (R210). -/
def Raises (i : Instr) (s : State) (c : FaultCause) : Prop :=
  ∃ t, exec i s = .next t ∧ t.run = .faulted ∧ t.fault = some c

/-- A binary instruction that writes its first register: for any two of the eight registers it completes, the first
register's new value is related to the two old values by `result`, and nothing else changes but `pc`. -/
def BinaryResult (mk : Byte → Byte → Instr) (result : Byte → Byte → Byte → Prop) : Prop :=
  ∀ (s : State) (ra rb : Fin 8), ∃ t, exec (mk (regByte ra) (regByte rb)) s = .next t ∧
    result (s.reg ra) (s.reg rb) (t.reg ra) ∧ RegisterForm s t [ra] 3 ∧ t.fl = s.fl

/-- A unary instruction that writes its register, likewise. -/
def UnaryResult (mk : Byte → Instr) (result : Byte → Byte → Prop) : Prop :=
  ∀ (s : State) (ra : Fin 8), ∃ t, exec (mk (regByte ra)) s = .next t ∧
    result (s.reg ra) (t.reg ra) ∧ RegisterForm s t [ra] 2 ∧ t.fl = s.fl

/-- The index faults of a binary instruction: operand A's first, then operand B's. -/
def BinaryIndexFaults (mk : Byte → Byte → Instr) : Prop :=
  (∀ s a b, 8 ≤ a.toNat → Raises (mk a b) s (.regOutOfBounds a)) ∧
    (∀ s a b, a.toNat < 8 → 8 ≤ b.toNat → Raises (mk a b) s (.regOutOfBounds b))

/-- The index fault of an instruction that names one register. -/
def UnaryIndexFault (mk : Byte → Instr) : Prop := ∀ s a, 8 ≤ a.toNat → Raises (mk a) s (.regOutOfBounds a)

/-- A jump that is taken exactly when `taken` holds of `FL`: taken, it goes to the address its register holds; not taken, it
falls through whatever its operand byte is; and it changes nothing but `pc` either way. A taken jump through an index
of 8 or more raises the index fault and `pc` stays. -/
structure JumpForm (mk : Byte → Instr) (taken : Byte → Prop) : Prop where
  jumps : ∀ (s : State) (r : Fin 8), taken s.fl → ∃ t, exec (mk (regByte r)) s = .next t ∧
    t.pc.toNat = (s.reg r).toNat ∧ OnlyPc s t
  indexFault : ∀ (s : State) (a : Byte), taken s.fl → 8 ≤ a.toNat → ∃ t, exec (mk a) s = .next t ∧
    t.run = .faulted ∧ t.fault = some (.regOutOfBounds a) ∧ t.pc = s.pc
  fallsThrough : ∀ (s : State) (a : Byte), ¬ taken s.fl → ∃ t, exec (mk a) s = .next t ∧
    t.pc = s.pc + 2#9 ∧ OnlyPc s t

/-- The jump goes to `target` when `p` holds and falls through when it does not. -/
def JumpsTo (i : Instr) (s : State) (p : Prop) (target : Byte) : Prop :=
  ∃ t, exec i s = .next t ∧ (p → t.pc.toNat = target.toNat) ∧ (¬ p → t.pc = s.pc + 2#9)

/-- The instruction bytes `bytes` stand in memory at `pc`. -/
def BytesAtPc (s : State) (bytes : List Byte) : Prop :=
  ∀ k (h : k < bytes.length), memRead s.mem (s.pc.toNat + k) = .ok bytes[k]

/-- The opcode byte at `pc` is `ir`. -/
def OpcodeAtPc (s : State) (ir : Byte) : Prop := memRead s.mem s.pc.toNat = .ok ir

/-- The instruction at `pc` is one that writes the register its operand A names (the "Writes" column of R26: LDI, the binary
operations but CMP, ST, the unary ones, POP), and its operand A names `r`. -/
def WritesOperandA (s : State) (r : Fin 8) : Prop :=
  ∃ ir, OpcodeAtPc s ir ∧ 2 ≤ unitLength ir ∧ memRead s.mem (s.pc.toNat + 1) = .ok (regByte r) ∧
    ir ∈ [0x82#8, 0xA0#8, 0xA1#8, 0xA2#8, 0xA3#8, 0xA4#8, 0xA8#8, 0xAA#8, 0xAB#8, 0xAC#8, 0xAD#8, 0x84#8, 0x65#8, 0x66#8,
      0x69#8, 0x46#8]

end Sys2Proof.Machine
end

