-- ==== Sys2Proof/Certificates/Slice0/Obligations.lean ====
section
/-! DEFINITION. The statements for the provers. Each docstring names the rule of spec/ it formalises; where a clause rests on
a decision of the spec (D<n> of spec/92_eei_decisions.md) or of the model, it says so and names the log entry. -/

open Sys2Proof Sys2Proof.Machine

/-! ### Encoding -/

/-- R80, R81, R86, R97: decoder and encoder agree in both directions. The decoder reads an instruction from a byte string
exactly when the string begins with that instruction's encoding, with every operand byte at every value, and leaves what
follows it. -/
def Obligations.DecodeGivesBackEncoded : Prop :=
  ∀ (bs : List Byte) (i : Instr) (rest : List Byte), decode bs = .instr i rest ↔ bs = encode i ++ rest

/-- R94: decoding is sequential from a known start. Two programs whose bytes are the same are the same instructions. -/
def Obligations.ProgramBytesDetermineInstructions : Prop :=
  ∀ p q : List Instr, p.flatMap encode = q.flatMap encode → p = q

/-- R86, R90: a first byte is rejected as unassigned exactly when it is the code of no row of the table. -/
def Obligations.UnassignedBytesRejected : Prop :=
  ∀ (b : Byte) (rest : List Byte), decode (b :: rest) = .reject (.unassigned b) ↔ ∀ o : Opcode, o.code ≠ b

/-- R86 (a sanity check): words written out from the table decode to their instructions. -/
def Obligations.WrittenWordsDecode : Prop :=
  decode [0b10000010#8, 0x00#8, 0x08#8] = .instr (.ldi 0x00#8 0x08#8) [] ∧
    decode [0b01000111#8, 0x00#8] = .instr (.prn 0x00#8) [] ∧
    decode [0b00000001#8] = .instr .hlt [] ∧
    decode [0b10100000#8, 0x05#8, 0xFF#8] = .instr (.add 0x05#8 0xFF#8) [] ∧
    decode [0b01000101#8, 0x07#8] = .instr (.push 0x07#8) [] ∧
    decode [0b01011010#8, 0x02#8] = .instr (.jge 0x02#8) [] ∧
    decode [0b01010010#8, 0x01#8] = .instr .int [0x01#8] ∧
    decode [0b11000000#8, 0x01#8] = .reject (.unassigned 0b11000000#8)

/-- R94: the length of the unit at `pc` is 1 plus the operand count: 2 for the F1 rows, 3 for the F2 rows, and 1 for HLT, NOP,
RET and every UNRECOGNIZED byte, the three reserved ones included. -/
def Obligations.UnitLengthByOpcode : Prop :=
  ∀ ir : Byte, unitLength ir = 1 + (decodeOpcode ir).2 ∧
    unitLength ir =
      if ir ∈ [0x45#8, 0x46#8, 0x47#8, 0x48#8, 0x50#8, 0x54#8, 0x55#8, 0x56#8, 0x57#8, 0x58#8, 0x59#8, 0x5A#8, 0x65#8,
        0x66#8, 0x69#8] then 2
      else if ir ∈ [0x82#8, 0x84#8, 0xA0#8, 0xA1#8, 0xA2#8, 0xA3#8, 0xA4#8, 0xA7#8, 0xA8#8, 0xAA#8, 0xAB#8, 0xAC#8,
        0xAD#8] then 3
      else 1

/-! ### Registers and memory -/

/-- R23, R24: a register read or write with an index of 8 or more raises RegOutOfBounds of the whole index; with a valid index
the read gives the register, and the write changes that register and nothing else. -/
def Obligations.RegisterAccessChecksIndex : Prop :=
  (∀ (s : State) (i v : Byte), 8 ≤ i.toNat →
    regRead s i = .error (.regOutOfBounds i) ∧ regWrite s i v = .error (.regOutOfBounds i)) ∧
  (∀ (s : State) (r : Fin 8) (v : Byte), regRead s (regByte r) = .ok (s.reg r) ∧
    ∃ t, regWrite s (regByte r) v = .ok t ∧ t.reg r = v ∧ RegsSameBut s t [r] ∧ t.pc = s.pc ∧ t.fl = s.fl ∧
      t.mem = s.mem ∧ StatusSame s t)

/-- R53, R54: an access at or above the capacity raises MemOutOfBounds of the address; below it, a write makes the cell read as
the value written and leaves every other address as it was. That a write keeps the canonical form and the capacity range of
`Memory.wf` is the model's own choice of how memory is held (log 5; the range is D1, log 1), no rule of the spec. -/
def Obligations.MemoryReadAfterWrite : Prop :=
  (∀ (m : Memory) (addr : Nat) (v : Byte), m.capacity ≤ addr →
    memRead m addr = .error (.memOutOfBounds addr) ∧ memWrite m addr v = .error (.memOutOfBounds addr)) ∧
  (∀ (m : Memory) (addr : Nat) (v : Byte), m.wf = true → addr < m.capacity →
    ∃ m', memWrite m addr v = .ok m' ∧ memRead m' addr = .ok v ∧
      (∀ other, other ≠ addr → memRead m' other = memRead m other) ∧ m'.capacity = m.capacity ∧ m'.wf = true)

/-! ### Arithmetic and logic -/

/-- R111, R112, R113: the sum, the difference and the product modulo 256; no flag; the index faults; the bytes. -/
def Obligations.AddSubMulResults : Prop :=
  BinaryResult .add (fun a b r => r.toNat = (a.toNat + b.toNat) % 256) ∧
  BinaryResult .sub (fun a b r => (r.toNat : Int) = ((a.toNat : Int) - b.toNat) % 256) ∧
  BinaryResult .mul (fun a b r => r.toNat = a.toNat * b.toNat % 256) ∧
  BinaryIndexFaults .add ∧ BinaryIndexFaults .sub ∧ BinaryIndexFaults .mul ∧
  BinaryBytes .add 0b10100000#8 ∧ BinaryBytes .sub 0b10100001#8 ∧ BinaryBytes .mul 0b10100010#8

/-- R114, R130. DIV gives the unsigned integer quotient (the spec's decision D6, log 12) when the divisor is not 0; with a zero
divisor it raises DivideByZero(0xA3) and the destination keeps its value; the index faults; the bytes. -/
def Obligations.DivQuotient : Prop :=
  (∀ (s : State) (ra rb : Fin 8), (s.reg rb).toNat ≠ 0 → ∃ t, exec (.div (regByte ra) (regByte rb)) s = .next t ∧
    (t.reg ra).toNat = (s.reg ra).toNat / (s.reg rb).toNat ∧ RegisterForm s t [ra] 3 ∧ t.fl = s.fl) ∧
  (∀ (s : State) (ra rb : Fin 8), (s.reg rb).toNat = 0 → ∃ t, exec (.div (regByte ra) (regByte rb)) s = .next t ∧
    t.run = .faulted ∧ t.fault = some (.divideByZero 0xA3#8) ∧ t.reg ra = s.reg ra) ∧
  BinaryIndexFaults .div ∧ BinaryBytes .div 0b10100011#8

/-- R115. MOD gives the unsigned remainder when the divisor is not 0; with a zero divisor it raises DivideByZero(0xA4) and the
destination keeps its value; no flag; the index faults; the bytes. -/
def Obligations.ModRemainder : Prop :=
  (∀ (s : State) (ra rb : Fin 8), (s.reg rb).toNat ≠ 0 → ∃ t, exec (.mod (regByte ra) (regByte rb)) s = .next t ∧
    (t.reg ra).toNat = (s.reg ra).toNat % (s.reg rb).toNat ∧ RegisterForm s t [ra] 3 ∧ t.fl = s.fl) ∧
  (∀ (s : State) (ra rb : Fin 8), (s.reg rb).toNat = 0 → ∃ t, exec (.mod (regByte ra) (regByte rb)) s = .next t ∧
    t.run = .faulted ∧ t.fault = some (.divideByZero 0xA4#8) ∧ t.reg ra = s.reg ra) ∧
  BinaryIndexFaults .mod ∧ BinaryBytes .mod 0b10100100#8

/-- R130 (derived there; rests on D6): from one state with a divisor that is not 0, the quotient DIV writes and the remainder
MOD writes satisfy `a = (a div b) * b + (a mod b)` and `a mod b < b`. -/
def Obligations.DivModReconstruct : Prop :=
  ∀ (s : State) (ra rb : Fin 8), (s.reg rb).toNat ≠ 0 →
    ∃ t u, exec (.div (regByte ra) (regByte rb)) s = .next t ∧ exec (.mod (regByte ra) (regByte rb)) s = .next u ∧
      (s.reg ra).toNat = (t.reg ra).toNat * (s.reg rb).toNat + (u.reg ra).toNat ∧
      (u.reg ra).toNat < (s.reg rb).toNat

/-- R116, R117: the register plus or minus one modulo 256; no flag; the index fault; the bytes. -/
def Obligations.IncDecResults : Prop :=
  UnaryResult .inc (fun a r => r.toNat = (a.toNat + 1) % 256) ∧
  UnaryResult .dec (fun a r => (r.toNat : Int) = ((a.toNat : Int) - 1) % 256) ∧
  UnaryIndexFault .inc ∧ UnaryIndexFault .dec ∧ UnaryBytes .inc 0b01100101#8 ∧ UnaryBytes .dec 0b01100110#8

/-- R121 (its value is derived there from R25): NOT gives `255 - x`, which is the inversion of every one of the 8 bits; no flag;
the index fault; the bytes. -/
def Obligations.NotInverts : Prop :=
  UnaryResult .not (fun a r => r.toNat = 255 - a.toNat ∧ ∀ k, k < 8 → r.getLsbD k = !a.getLsbD k) ∧ UnaryIndexFault .not ∧
  UnaryBytes .not 0b01101001#8

/-- R118, R119, R120: AND, OR and XOR bit by bit; no flag; the index faults; the bytes. -/
def Obligations.AndOrXorBitwise : Prop :=
  BinaryResult .and (fun a b r => ∀ k, k < 8 → r.getLsbD k = (a.getLsbD k && b.getLsbD k)) ∧
  BinaryResult .or (fun a b r => ∀ k, k < 8 → r.getLsbD k = (a.getLsbD k || b.getLsbD k)) ∧
  BinaryResult .xor (fun a b r => ∀ k, k < 8 → r.getLsbD k = (a.getLsbD k != b.getLsbD k)) ∧
  BinaryIndexFaults .and ∧ BinaryIndexFaults .or ∧ BinaryIndexFaults .xor ∧
  BinaryBytes .and 0b10101000#8 ∧ BinaryBytes .or 0b10101010#8 ∧ BinaryBytes .xor 0b10101011#8

/-- R122, R123 (the spec's decision D7, log 12): the shifts are the exact product and quotient by the power of two of the WHOLE
count, the product modulo 256, so a count of 8 or more gives 0; no flag; the index faults; the bytes. -/
def Obligations.ShiftResults : Prop :=
  BinaryResult .shl (fun a c r => r.toNat = a.toNat * 2 ^ c.toNat % 256 ∧ (8 ≤ c.toNat → r.toNat = 0)) ∧
  BinaryResult .shr (fun a c r => r.toNat = a.toNat / 2 ^ c.toNat ∧ (8 ≤ c.toNat → r.toNat = 0)) ∧
  BinaryIndexFaults .shl ∧ BinaryIndexFaults .shr ∧ BinaryBytes .shl 0b10101100#8 ∧ BinaryBytes .shr 0b10101101#8

/-- R124: CMP writes the whole `FL` byte from the unsigned comparison, exactly one of the three patterns, and nothing else but
`pc`; an index fault leaves `FL` unchanged; no other instruction changes `FL`; the bytes. -/
def Obligations.CmpWritesFlags : Prop :=
  (∀ (s : State) (ra rb : Fin 8), ∃ t, exec (.cmp (regByte ra) (regByte rb)) s = .next t ∧
    ((s.reg ra).toNat = (s.reg rb).toNat → t.fl = 0b00000001#8) ∧
    ((s.reg rb).toNat < (s.reg ra).toNat → t.fl = 0b00000010#8) ∧
    ((s.reg ra).toNat < (s.reg rb).toNat → t.fl = 0b00000100#8) ∧ RegisterForm s t [] 3) ∧
  BinaryIndexFaults .cmp ∧
  (∀ (s t : State) (a b : Byte), 8 ≤ a.toNat ∨ 8 ≤ b.toNat → exec (.cmp a b) s = .next t → t.fl = s.fl) ∧
  (∀ (i : Instr) (s t : State), exec i s = .next t → t.fl ≠ s.fl → ∃ a b, i = .cmp a b) ∧
  BinaryBytes .cmp 0b10100111#8

/-- R125 (that the engine dispatches it is the spec's decision D9, log 13): ST copies the second register to the first and does
not touch memory; no flag; the index faults; the bytes. -/
def Obligations.StCopiesRegister : Prop :=
  BinaryResult .st (fun _ b r => r = b) ∧ BinaryIndexFaults .st ∧ BinaryBytes .st 0b10000100#8

/-- R93, R110, R210 (the select is the opcode byte by the spec's decision D26, log 10): driven directly, the alu block raises
UnsupportedAluOp exactly for a select that is not one of its fifteen, and its info is that select. -/
def Obligations.AluSelectsSupported : Prop :=
  ∀ op a b x : Byte, alu op a b = .error (.unsupportedAluOp x) ↔
    x = op ∧ op ∉ [0xA0#8, 0xA1#8, 0xA2#8, 0xA3#8, 0xA4#8, 0x65#8, 0x66#8, 0xA8#8, 0xAA#8, 0xAB#8, 0x69#8, 0xAC#8, 0xAD#8,
      0xA7#8, 0x84#8]

/-! ### Immediate load and output -/

/-- R170: LDI writes the literal byte as it stands; the index fault depends on operand A only; the bytes. -/
def Obligations.LdiLoadsLiteral : Prop :=
  (∀ (s : State) (r : Fin 8) (imm : Byte), ∃ t, exec (.ldi (regByte r) imm) s = .next t ∧ t.reg r = imm ∧
    RegisterForm s t [r] 3 ∧ t.fl = s.fl) ∧
  (∀ (s : State) (a imm : Byte), 8 ≤ a.toNat → ∃ t, exec (.ldi a imm) s = .next t ∧ t.run = .faulted ∧
    t.fault = some (.regOutOfBounds a) ∧ RegsSameBut s t [] ∧ t.pc = s.pc) ∧
  BinaryBytes .ldi 0b10000010#8

/-- R171, R172: PRN and PRA append one event with the register's value, PrintNum or PrintChar, and change nothing else but
`pc`; with an invalid index they raise the index fault and emit nothing; the bytes. -/
def Obligations.PrintsEmitRegisterValue : Prop :=
  (∀ (s : State) (r : Fin 8),
    (∃ t, exec (.prn (regByte r)) s = .next t ∧ t.out = s.out ++ [.printNum (s.reg r)] ∧ t.pc = s.pc + 2#9 ∧
      RegsSameBut s t [] ∧ t.fl = s.fl ∧ MemSame s t ∧ t.run = s.run ∧ t.fault = s.fault) ∧
    (∃ t, exec (.pra (regByte r)) s = .next t ∧ t.out = s.out ++ [.printChar (s.reg r)] ∧ t.pc = s.pc + 2#9 ∧
      RegsSameBut s t [] ∧ t.fl = s.fl ∧ MemSame s t ∧ t.run = s.run ∧ t.fault = s.fault)) ∧
  (∀ (s : State) (a : Byte), 8 ≤ a.toNat →
    (∃ t, exec (.prn a) s = .next t ∧ t.run = .faulted ∧ t.fault = some (.regOutOfBounds a) ∧ t.out = s.out) ∧
    (∃ t, exec (.pra a) s = .next t ∧ t.run = .faulted ∧ t.fault = some (.regOutOfBounds a) ∧ t.out = s.out)) ∧
  UnaryBytes .prn 0b01000111#8 ∧ UnaryBytes .pra 0b01001000#8

/-- R171, 95_test_vectors S4: LDI followed by PRN on the same register prints exactly the loaded literal. -/
def Obligations.LdiThenPrnPrintsLiteral : Prop :=
  ∀ (s : State) (r : Fin 8) (imm : Byte), ∃ t u, exec (.ldi (regByte r) imm) s = .next t ∧
    exec (.prn (regByte r)) t = .next u ∧ u.out = s.out ++ [.printNum imm] ∧ u.pc = s.pc + 5#9

/-- R43, R44 (the terminator byte is the spec's decision D21, log 8): the text of PrintNum is decimal digits that say the value,
with no leading zero, then the terminator; the text of PrintChar below 128 is the one byte and the terminator. -/
def Obligations.PrintedTextIsDecimal : Prop :=
  ∀ v : Byte,
    (∃ digits : List Byte, OutputEvent.render (.printNum v) = digits ++ [0x0A#8] ∧ digits ≠ [] ∧
      (∀ d ∈ digits, 0x30 ≤ d.toNat ∧ d.toNat ≤ 0x39) ∧
      digits.foldl (fun n d => 10 * n + (d.toNat - 0x30)) 0 = v.toNat ∧
      (digits.head? = some 0x30#8 → digits = [0x30#8])) ∧
    (v.toNat < 128 → OutputEvent.render (.printChar v) = [v, 0x0A#8])

/-! ### Stack -/

/-- R180, R181: push writes its value at `SP - 1` modulo 256 and `SP` takes that address, or raises MemOutOfBounds of it; pop
gives the byte at `SP` and moves `SP` one up modulo 256, or raises MemOutOfBounds of `SP`. -/
def Obligations.StackOperationsAddress : Prop :=
  (∀ s : State, pushAddr s = (s.sp.toNat + 255) % 256) ∧
  (∀ (s : State) (v : Byte), s.mem.wf = true → (s.sp.toNat + 255) % 256 < s.mem.capacity →
    ∃ t, push v s = .ok t ∧ t.sp.toNat = (s.sp.toNat + 255) % 256 ∧
      memRead t.mem ((s.sp.toNat + 255) % 256) = .ok v ∧ MemSameBut s t ((s.sp.toNat + 255) % 256) ∧
      RegsSameBut s t [7] ∧ t.pc = s.pc ∧ t.fl = s.fl ∧ StatusSame s t) ∧
  (∀ (s : State) (v : Byte), s.mem.capacity ≤ (s.sp.toNat + 255) % 256 →
    push v s = .error (.memOutOfBounds ((s.sp.toNat + 255) % 256))) ∧
  (∀ s : State, s.sp.toNat < s.mem.capacity →
    ∃ v t, pop s = .ok (v, t) ∧ memRead s.mem s.sp.toNat = .ok v ∧ t.sp.toNat = (s.sp.toNat + 1) % 256 ∧
      t.mem = s.mem ∧ RegsSameBut s t [7] ∧ t.pc = s.pc ∧ t.fl = s.fl ∧ StatusSame s t) ∧
  (∀ s : State, s.mem.capacity ≤ s.sp.toNat → pop s = .error (.memOutOfBounds s.sp.toNat))

/-- R182 (the register is read before `SP` moves by the spec's decision D14, log 11): PUSH stores the register's old value at
`pushAddr s`, `SP` takes that address, and no other byte, register or flag changes; the bytes. `PUSH R7` stores the old `SP`. -/
def Obligations.PushStoresRegister : Prop :=
  (∀ (s : State) (r : Fin 8), s.mem.wf = true → pushAddr s < s.mem.capacity →
    ∃ t, exec (.push (regByte r)) s = .next t ∧ memRead t.mem (pushAddr s) = .ok (s.reg r) ∧
      MemSameBut s t (pushAddr s) ∧ t.sp.toNat = pushAddr s ∧ RegsSameBut s t [7] ∧ t.pc = s.pc + 2#9 ∧ t.fl = s.fl ∧
      StatusSame s t) ∧
  UnaryBytes .push 0b01000101#8

/-- R183 (the register is written after `SP` moves by the spec's decision D15, log 11): POP puts the byte at `SP` into the
register and `SP` moves up; when the register is `R7` the popped value stays. Memory does not change; the bytes. -/
def Obligations.PopLoadsRegister : Prop :=
  (∀ (s : State) (r : Fin 8), s.sp.toNat < s.mem.capacity →
    ∃ t, exec (.pop (regByte r)) s = .next t ∧ memRead s.mem s.sp.toNat = .ok (t.reg r) ∧
      (r ≠ 7 → t.sp.toNat = (s.sp.toNat + 1) % 256) ∧ RegsSameBut s t [r, 7] ∧ MemSame s t ∧ t.pc = s.pc + 2#9 ∧
      t.fl = s.fl ∧ StatusSame s t) ∧
  UnaryBytes .pop 0b01000110#8

/-- R182, R183, R191, R212 (the order is the spec's decision D23, log 11): PUSH checks its register before the stack write; POP
and CALL check the stack access before their register. -/
def Obligations.StackFaultPriority : Prop :=
  (∀ (s : State) (a : Byte), 8 ≤ a.toNat → Raises (.push a) s (.regOutOfBounds a)) ∧
  (∀ (s : State) (r : Fin 8), s.mem.capacity ≤ pushAddr s → Raises (.push (regByte r)) s (.memOutOfBounds (pushAddr s))) ∧
  (∀ (s : State) (a : Byte), s.mem.capacity ≤ s.sp.toNat → Raises (.pop a) s (.memOutOfBounds s.sp.toNat)) ∧
  (∀ (s : State) (a : Byte), s.sp.toNat < s.mem.capacity → 8 ≤ a.toNat → Raises (.pop a) s (.regOutOfBounds a)) ∧
  (∀ (s : State) (a : Byte), s.mem.capacity ≤ pushAddr s → Raises (.call a) s (.memOutOfBounds (pushAddr s))) ∧
  (∀ (s : State) (a : Byte), pushAddr s < s.mem.capacity → 8 ≤ a.toNat → Raises (.call a) s (.regOutOfBounds a))

/-- R186 (derived there from R182, R183; rests on D14, D15): PUSH then POP through registers other than `R7` is a round trip. -/
def Obligations.PushPopRoundTrip : Prop :=
  ∀ (s : State) (ra rb : Fin 8), s.mem.wf = true → pushAddr s < s.mem.capacity → ra ≠ 7 → rb ≠ 7 →
    ∃ t u, exec (.push (regByte ra)) s = .next t ∧ exec (.pop (regByte rb)) t = .next u ∧ u.sp = s.sp ∧
      u.reg rb = s.reg ra ∧ RegsSameBut s u [rb] ∧ memRead u.mem (pushAddr s) = .ok (s.reg ra) ∧
      MemSameBut s u (pushAddr s) ∧ u.pc = s.pc + 4#9

/-! ### Control transfer -/

/-- R190, R194 to R200, R204: when each of the seven jumps is taken, where it goes, and that it changes nothing but `pc`; the
bytes. -/
def Obligations.JumpsFollowCondition : Prop :=
  JumpForm .jmp (fun _ => True) ∧
  JumpForm .jeq (fun fl => fl.getLsbD 0 = true) ∧
  JumpForm .jne (fun fl => fl.getLsbD 0 = false) ∧
  JumpForm .jgt (fun fl => fl.getLsbD 1 = true) ∧
  JumpForm .jlt (fun fl => fl.getLsbD 2 = true) ∧
  JumpForm .jle (fun fl => fl.getLsbD 0 = true ∨ fl.getLsbD 2 = true) ∧
  JumpForm .jge (fun fl => fl.getLsbD 0 = true ∨ fl.getLsbD 1 = true) ∧
  UnaryBytes .jmp 0b01010100#8 ∧ UnaryBytes .jeq 0b01010101#8 ∧ UnaryBytes .jne 0b01010110#8 ∧
  UnaryBytes .jgt 0b01010111#8 ∧ UnaryBytes .jlt 0b01011000#8 ∧ UnaryBytes .jle 0b01011001#8 ∧
  UnaryBytes .jge 0b01011010#8

/-- R201 (derived there from R190), 95_test_vectors S5: after a CMP each conditional jump branches as the unsigned relation of
the two registers says. -/
def Obligations.CmpThenJumpTruthTable : Prop :=
  ∀ (s : State) (ra rb r : Fin 8), ∃ t, exec (.cmp (regByte ra) (regByte rb)) s = .next t ∧
    JumpsTo (.jeq (regByte r)) t ((s.reg ra).toNat = (s.reg rb).toNat) (s.reg r) ∧
    JumpsTo (.jne (regByte r)) t ((s.reg ra).toNat ≠ (s.reg rb).toNat) (s.reg r) ∧
    JumpsTo (.jgt (regByte r)) t ((s.reg rb).toNat < (s.reg ra).toNat) (s.reg r) ∧
    JumpsTo (.jlt (regByte r)) t ((s.reg ra).toNat < (s.reg rb).toNat) (s.reg r) ∧
    JumpsTo (.jle (regByte r)) t ((s.reg ra).toNat ≤ (s.reg rb).toNat) (s.reg r) ∧
    JumpsTo (.jge (regByte r)) t ((s.reg rb).toNat ≤ (s.reg ra).toNat) (s.reg r)

/-- R191 (target read after the push, and the stored address modulo 256, by the spec's decision D16, log 11): CALL stores `pc +
2` modulo 256 at `pushAddr s`, `SP` takes that address, and `pc` takes the register's value; `CALL R7` goes to the new `SP`; the
bytes. -/
def Obligations.CallPushesReturnAddress : Prop :=
  (∀ (s : State) (r : Fin 8), s.mem.wf = true → pushAddr s < s.mem.capacity →
    ∃ t, exec (.call (regByte r)) s = .next t ∧
      memRead t.mem (pushAddr s) = .ok (BitVec.ofNat 8 ((s.pc.toNat + 2) % 256)) ∧ MemSameBut s t (pushAddr s) ∧
      t.sp.toNat = pushAddr s ∧ RegsSameBut s t [7] ∧
      t.pc.toNat = (if r = 7 then pushAddr s else (s.reg r).toNat) ∧ t.fl = s.fl ∧ StatusSame s t) ∧
  UnaryBytes .call 0b01010000#8

/-- R192: RET pops the byte at `SP` into `pc`, and no register but `x[7]` changes; outside memory it raises MemOutOfBounds of
`SP`, and `SP` and `pc` are unchanged; the byte. -/
def Obligations.RetPopsIntoPc : Prop :=
  (∀ s : State, s.sp.toNat < s.mem.capacity →
    ∃ t v, exec .ret s = .next t ∧ memRead s.mem s.sp.toNat = .ok v ∧ t.pc.toNat = v.toNat ∧
      t.sp.toNat = (s.sp.toNat + 1) % 256 ∧ RegsSameBut s t [7] ∧ MemSame s t ∧ t.fl = s.fl ∧ StatusSame s t) ∧
  (∀ s : State, s.mem.capacity ≤ s.sp.toNat →
    ∃ t, exec .ret s = .next t ∧ t.run = .faulted ∧ t.fault = some (.memOutOfBounds s.sp.toNat) ∧ t.sp = s.sp ∧
      t.pc = s.pc) ∧
  encode .ret = [0b00010001#8]

/-- R202 (derived there from R191, R192; rests on D16): a CALL goes to its register's value, and a RET from any later state
whose `SP` and return cell are as the CALL left them resumes after the CALL with `SP` restored. -/
def Obligations.CallThenRetResumes : Prop :=
  ∀ (s : State) (r : Fin 8), s.mem.wf = true → pushAddr s < s.mem.capacity → s.pc.toNat ≤ 253 → r ≠ 7 →
    ∃ t, exec (.call (regByte r)) s = .next t ∧ t.pc.toNat = (s.reg r).toNat ∧
      ∀ t' : State, t'.sp = t.sp → memRead t'.mem t.sp.toNat = memRead t.mem t.sp.toNat →
        ∃ u, exec .ret t' = .next u ∧ u.pc.toNat = s.pc.toNat + 2 ∧ u.sp = s.sp

/-! ### The engine -/

/-- R149 (the spec's decision D8, log 13): NOP changes `pc` only; the byte. -/
def Obligations.NopAdvancesOnly : Prop :=
  (∀ s : State, ∃ t, exec .nop s = .next t ∧ t.pc = s.pc + 1#9 ∧ OnlyPc s t) ∧ encode .nop = [0b00000000#8]

/-- R148, R36 (that `pc` is not written is the spec's decision D20, log 16; that the step of a halted core answers a named fault
is the model's choice, log 2): HLT sets `run` to HALTED, changes nothing else, and the halted core takes no further step; the
byte. -/
def Obligations.HltHalts : Prop :=
  (∀ s : State, ∃ t, exec .hlt s = .next t ∧ t.run = .halted ∧ t.pc = s.pc ∧ RegsSameBut s t [] ∧ t.fl = s.fl ∧
    MemSame s t ∧ t.out = s.out ∧ t.fault = s.fault ∧ step t = .fault .coreHalted) ∧
  encode .hlt = [0b00000001#8]

/-- R152 (the spec's decision D10, log 13; the length by C4, log 7): IRET, INT and LD emit the diagnostic of their opcode,
advance by one byte and change nothing else; the byte of each. -/
def Obligations.ReservedOpcodesDiagnose : Prop :=
  (∀ (s : State) (i : Instr) (ir : Byte), (i, ir) ∈ [(Instr.iret, 0x13#8), (Instr.int, 0x52#8), (Instr.ld, 0x83#8)] →
    ∃ t, exec i s = .next t ∧ t.out = s.out ++ [.diag ir] ∧ t.pc = s.pc + 1#9 ∧ RegsSameBut s t [] ∧ t.fl = s.fl ∧
      MemSame s t ∧ t.run = s.run ∧ t.fault = s.fault) ∧
  encode .iret = [0b00010011#8] ∧ encode .int = [0b01010010#8] ∧ encode .ld = [0b10000011#8]

/-- R90, R150 (that the run goes on with nothing else changed is the spec's decision D11, the lenient one of its two, log 13): a
byte that is in no row of the table, fetched as an opcode, emits its diagnostic and advances `pc` by 1. -/
def Obligations.UnassignedByteDiagnosed : Prop :=
  ∀ (s : State) (b : Byte), s.run = .running → OpcodeAtPc s b → (∀ o : Opcode, o.code ≠ b) →
    ∃ t, step s = .next t ∧ t.out = s.out ++ [.diag b] ∧ t.pc = s.pc + 1#9 ∧ RegsSameBut s t [] ∧ t.fl = s.fl ∧
      MemSame s t ∧ t.run = .running ∧ t.fault = s.fault

/-- R140, R142, R143: while RUNNING, when an instruction's bytes stand in memory at `pc`, the step is that instruction's
meaning in the same state; bytes past the instruction's own are not read. -/
def Obligations.StepRunsDecodedInstruction : Prop :=
  ∀ (s : State) (i : Instr), s.run = .running → BytesAtPc s (encode i) → step s = exec i s

/-- R141 (that a `pc` at the end of memory faults and does not wrap is the spec's decision D2, log 3): an opcode fetch at `pc >=
MEM_CAPACITY` raises MemOutOfBounds(pc) and changes no memory; with the default capacity and a `pc` of at most 256 a step raises
MemOutOfBounds(pc) exactly when `pc = 256`. -/
def Obligations.OpcodeFetchFault : Prop :=
  (∀ s : State, s.run = .running → s.mem.capacity ≤ s.pc.toNat →
    ∃ t, step s = .next t ∧ t.run = .faulted ∧ t.fault = some (.memOutOfBounds s.pc.toNat) ∧ MemSame s t) ∧
  (∀ s : State, s.run = .running → s.pc.toNat ≤ 256 → s.mem.capacity = 256 →
    ((∃ t, step s = .next t ∧ t.run = .faulted ∧ t.fault = some (.memOutOfBounds s.pc.toNat)) ↔ s.pc.toNat = 256))

/-- R142 (the spec's decision D12, log 11): an operand byte that is not in memory raises MemOutOfBounds of the first such
address, before any part of the arm runs. -/
def Obligations.OperandFetchFault : Prop :=
  (∀ (s : State) (ir : Byte), s.run = .running → OpcodeAtPc s ir → 2 ≤ unitLength ir →
    s.mem.capacity ≤ s.pc.toNat + 1 → ∃ t, step s = .next t ∧ VoidWith s t (.memOutOfBounds (s.pc.toNat + 1))) ∧
  (∀ (s : State) (ir : Byte), s.run = .running → OpcodeAtPc s ir → unitLength ir = 3 →
    s.pc.toNat + 1 < s.mem.capacity → s.mem.capacity ≤ s.pc.toNat + 2 →
    ∃ t, step s = .next t ∧ VoidWith s t (.memOutOfBounds (s.pc.toNat + 2)))

/-- R36, R140 (that the step then stops with a named fault is the model's choice, log 2): HALTED and FAULTED are absorbing, there
is no step. -/
def Obligations.StoppedCoreTakesNoStep : Prop :=
  ∀ s : State, (s.run = .halted → step s = .fault .coreHalted) ∧
    (s.run = .faulted → step s = .fault (.coreFaulted s.fault))

/-- R140: a RUNNING state has a next state, whatever memory, registers and `pc` hold; the step never stops there and never
refuses (a fatal error is a next state by log 2). -/
def Obligations.RunningStepHasNextState : Prop :=
  ∀ s : State, s.run = .running → ∃ t, step s = .next t

/-! ### Faults -/

/-- R214 (the spec's decision D18, log 11): when a step, or an instruction run from a RUNNING state, ends FAULTED, it changed
nothing but `run` and `fault`, and `fault` holds a record. -/
def Obligations.FaultingStepIsVoid : Prop :=
  (∀ s t : State, step s = .next t → t.run = .faulted → ∃ c, VoidWith s t c) ∧
  (∀ (i : Instr) (s t : State), s.run = .running → exec i s = .next t → t.run = .faulted → ∃ c, VoidWith s t c)

/-- R211 (derived there): which step raises which cause, read off the bytes at `pc`. UnsupportedAluOp is raised by none. -/
def Obligations.FaultCausesByStep : Prop :=
  ∀ (s t : State) (c : FaultCause), step s = .next t → t.run = .faulted → t.fault = some c →
    match c with
    | .memOutOfBounds addr => s.mem.capacity ≤ addr ∧
        (addr = s.pc.toNat ∨
          (∃ ir, OpcodeAtPc s ir ∧
            ((addr = s.pc.toNat + 1 ∧ 2 ≤ unitLength ir) ∨ (addr = s.pc.toNat + 2 ∧ unitLength ir = 3) ∨
              (addr = pushAddr s ∧ (ir = 0x45#8 ∨ ir = 0x50#8)) ∨ (addr = s.sp.toNat ∧ (ir = 0x46#8 ∨ ir = 0x11#8)))))
    | .regOutOfBounds i => 8 ≤ i.toNat ∧
        ∃ ir, OpcodeAtPc s ir ∧ ((memRead s.mem (s.pc.toNat + 1) = .ok i ∧ 2 ≤ unitLength ir) ∨
          (memRead s.mem (s.pc.toNat + 2) = .ok i ∧ (decodeOpcode ir).1 = .alu ∧ unitLength ir = 3))
    | .divideByZero op => OpcodeAtPc s op ∧ (op = 0xA3#8 ∨ op = 0xA4#8)
    | .unsupportedAluOp _ => False

/-- R51 (the admitted capacity is the spec's decision D1, log 1): with the default capacity a step raises MemOutOfBounds at
address 256 only, so PUSH, POP, CALL and RET never raise it for their stack access. -/
def Obligations.DefaultCapacityFaultAddress : Prop :=
  ∀ (s t : State) (addr : Nat), s.Inv → s.mem.capacity = 256 → step s = .next t →
    t.fault = some (.memOutOfBounds addr) → addr = 256

/-- R83, R84 (what well-formed means is the model's choice, log 15): an instruction whose register indices are all valid never
raises RegOutOfBounds. -/
def Obligations.WellFormedRaisesNoIndexFault : Prop :=
  ∀ (i : Instr) (s t : State) (x : Byte), i.wellFormed = true → s.fault = none → exec i s = .next t →
    t.fault ≠ some (.regOutOfBounds x)

/-- R217 (the codes are the spec's decision D19, log 16): no exit status while RUNNING, 0 when HALTED, the cause code when
FAULTED. -/
def Obligations.ExitStatusFollowsRun : Prop :=
  ∀ s : State, (s.run = .running → s.exitStatus = none) ∧ (s.run = .halted → s.exitStatus = some 0) ∧
    (∀ c, s.run = .faulted → s.fault = some c → s.exitStatus = some (match c with
      | .memOutOfBounds _ => 1
      | .regOutOfBounds _ => 2
      | .divideByZero _ => 3
      | .unsupportedAluOp _ => 4))

/-! ### Reset and launch -/

/-- R46, R50, R240, R241 (`x[0]` to `x[6]` and unwritten memory are the spec's decisions D3, D4, logs 4 and 5; that the reset
state has the default capacity, 256, is the model's choice, log 1): what reset leaves, from whatever state; it does not write
memory. -/
def Obligations.ResetLeaves : Prop :=
  (∀ s : State, (∀ r : Fin 8, r ≠ 7 → (assertReset s).reg r = 0x00#8) ∧ (assertReset s).sp = 0xF4#8 ∧
    (assertReset s).pc = 0#9 ∧ (assertReset s).fl = 0b00000000#8 ∧ (assertReset s).run = .running ∧
    (assertReset s).fault = none ∧ (assertReset s).out = [] ∧ (assertReset s).mem = s.mem) ∧
  (∀ s : State, s.mem = State.reset.mem → assertReset s = State.reset) ∧
  State.reset.mem.capacity = 256 ∧ (∀ addr, addr < 256 → memRead State.reset.mem addr = .ok 0x00#8)

/-- R242 (the spec's decision D4, log 5; the refusals D1, log 6): a launch puts byte `k` of the image at address `k` and 0 above
it, with the core at reset; a longer image or a capacity outside 1 to 256 is refused. That the memory is canonical (`Memory.wf`)
is the model's own choice, log 5. -/
def Obligations.BootLoadsImage : Prop :=
  (∀ (capacity : Nat) (image : List Byte), 1 ≤ capacity → capacity ≤ 256 → image.length ≤ capacity →
    ∃ s, boot capacity image = some s ∧ s.mem.capacity = capacity ∧ s.mem.wf = true ∧ assertReset s = s ∧
      (∀ k (h : k < image.length), memRead s.mem k = .ok image[k]) ∧
      (∀ k, image.length ≤ k → k < capacity → memRead s.mem k = .ok 0x00#8)) ∧
  (∀ (capacity : Nat) (image : List Byte), capacity = 0 ∨ 256 < capacity ∨ capacity < image.length →
    boot capacity image = none)

/-! ### Whole-machine rules -/

/-- R29, R32, R37, R46, R51, R210: the invariant holds after reset. That `State.Inv` asks for the canonical form of `Memory.wf`
is the model's own choice of how memory is held (log 5; the capacity range is D1, log 1), no rule of the spec. -/
def Obligations.ResetMeetsInvariant : Prop := State.reset.Inv

/-- R29, R32, R37, R51, R210: every step from a state that meets the invariant leads to one: the memory stays admitted and
canonical, `pc` at most 256, `FL` one of its four values, a fault record exactly when FAULTED, and a record a step may write.
The canonical form of `Memory.wf` is the model's own choice of how memory is held (log 5; the capacity range is D1, log 1; the
range of `pc` is D2, log 3), no rule of the spec. -/
def Obligations.StepKeepsInvariant : Prop :=
  ∀ s t : State, s.Inv → step s = .next t → t.Inv

/-- R33: a step whose opcode byte is not CMP's leaves `FL` as it was; a step of CMP that goes on writes one of the three
patterns. -/
def Obligations.OnlyCmpWritesFlags : Prop :=
  ∀ s t : State, step s = .next t → (¬ OpcodeAtPc s 0xA7#8 → t.fl = s.fl) ∧
    (OpcodeAtPc s 0xA7#8 → t.run = .running → t.fl = 0b00000001#8 ∨ t.fl = 0b00000010#8 ∨ t.fl = 0b00000100#8)

/-- R34: apart from the six conditional jumps no step reads `FL`. From a state with another `FL` it does the same, with that
`FL` kept, a step that faults (at the fetch, or a CMP on its registers) included, with the same record; a CMP that goes on
writes the same `FL` from both; and a core that is stopped is stopped whatever `FL` holds (log 2). -/
def Obligations.FlagsReadOnlyByJumps : Prop :=
  ∀ (s : State) (f : Byte),
    (∀ ir, OpcodeAtPc s ir → ir ∉ [0x55#8, 0x56#8, 0x57#8, 0x58#8, 0x59#8, 0x5A#8]) →
    (∀ t, step s = .next t →
      (¬ OpcodeAtPc s 0xA7#8 ∨ t.run = .faulted → step { s with fl := f } = .next { t with fl := f }) ∧
      (OpcodeAtPc s 0xA7#8 → t.run ≠ .faulted → step { s with fl := f } = .next t)) ∧
    (∀ e, step s = .fault e → step { s with fl := f } = .fault e)

/-- R52 (derived there): only a step of PUSH or CALL changes memory, and then only the byte at `pushAddr`; no step changes the
capacity. -/
def Obligations.OnlyPushAndCallStore : Prop :=
  ∀ s t : State, step s = .next t → MemSameBut s t (pushAddr s) ∧ t.mem.capacity = s.mem.capacity ∧
    (¬ OpcodeAtPc s 0x45#8 → ¬ OpcodeAtPc s 0x50#8 → MemSame s t)

/-- R185, R26 (derived there): a step that changes `x[7]` is a PUSH, POP, CALL or RET, or one of the instructions that write the
register their operand A names, and it names register 7. -/
def Obligations.SpChangesAreNamed : Prop :=
  ∀ s t : State, step s = .next t → t.sp ≠ s.sp →
    OpcodeAtPc s 0x45#8 ∨ OpcodeAtPc s 0x46#8 ∨ OpcodeAtPc s 0x50#8 ∨ OpcodeAtPc s 0x11#8 ∨ WritesOperandA s 7

/-- R26 (derived there): apart from `x[7]`, a step changes at most the register its operand A names, and only a step of an
instruction that R26 says writes that register; no step of a one-byte unit changes one. -/
def Obligations.OnlyOperandARegisterWritten : Prop :=
  ∀ (s t : State) (r : Fin 8), step s = .next t → t.reg r ≠ s.reg r → r ≠ 7 → WritesOperandA s r

/-- R31 (derived from the rules of the instructions): a step that goes on moves `pc` past its unit or, for a transfer, to an
8-bit address; a step that ends the run leaves `pc`. -/
def Obligations.PcFollowsUnitLength : Prop :=
  ∀ s t : State, s.Inv → step s = .next t →
    (t.run ≠ .running → t.pc = s.pc) ∧
    (t.run = .running → ∃ ir, OpcodeAtPc s ir ∧
      (t.pc.toNat = s.pc.toNat + unitLength ir ∨
        (ir ∈ [0x11#8, 0x50#8, 0x54#8, 0x55#8, 0x56#8, 0x57#8, 0x58#8, 0x59#8, 0x5A#8] ∧ t.pc.toNat ≤ 255)))

/-- R173: a step appends at most one event at the end of `out`, and only PRN, PRA and an unrecognized opcode emit one. -/
def Obligations.StepEmitsAtMostOneEvent : Prop :=
  ∀ s t : State, step s = .next t → ∃ events : List OutputEvent, t.out = s.out ++ events ∧ events.length ≤ 1 ∧
    (events ≠ [] → ∃ ir, OpcodeAtPc s ir ∧ (ir = 0x47#8 ∨ ir = 0x48#8 ∨ (decodeOpcode ir).1 = .unrecognized))

/-- R42: the core never reads `out`. From a state that has emitted more before, a step does the same, and a stopped core (whose
named fault is the model's choice, log 2) is stopped alike. -/
def Obligations.OutputNeverRead : Prop :=
  ∀ (s : State) (before : List OutputEvent),
    (∀ t, step s = .next t → step { s with out := before ++ s.out } = .next { t with out := before ++ t.out }) ∧
    (∀ f, step s = .fault f → step { s with out := before ++ s.out } = .fault f)

/-- R68 (derived there): a PUSH that writes the cell the next step fetches is seen by that fetch; pushing HLT's code there halts
the core. -/
def Obligations.StackWriteIsFetched : Prop :=
  ∀ (s : State) (r : Fin 8), s.run = .running → s.mem.wf = true → BytesAtPc s [0x45#8, regByte r] →
    pushAddr s = s.pc.toNat + 2 → pushAddr s < s.mem.capacity →
    ∃ t, step s = .next t ∧ OpcodeAtPc t (s.reg r) ∧
      (s.reg r = 0x01#8 → ∃ u, step t = .next u ∧ u.run = .halted ∧ u.pc.toNat = pushAddr s)

/-- R141, R149 (that 0 runs as NOP is the spec's decision D8, log 13; rests on D2): from a state whose memory holds 0 from `pc` to
its end, the core runs to the end of memory changing nothing but `pc`, and the next step faults there with
MemOutOfBounds(MEM_CAPACITY). -/
def Obligations.ZeroMemoryRunsToTheEnd : Prop :=
  ∀ s : State, s.run = .running → s.mem.capacity ≤ 256 → s.pc.toNat ≤ s.mem.capacity →
    (∀ addr, s.pc.toNat ≤ addr → addr < s.mem.capacity → memRead s.mem addr = .ok 0x00#8) →
    Sys2Proof.core.run (s.mem.capacity - s.pc.toNat) s = .next { s with pc := BitVec.ofNat 9 s.mem.capacity } ∧
    Sys2Proof.core.run (s.mem.capacity - s.pc.toNat + 1) s =
      .next { s with pc := BitVec.ofNat 9 s.mem.capacity, run := .faulted, fault := some (.memOutOfBounds s.mem.capacity) }
end

