-- ==== Sys2Proof/Laws/Encoding.lean ====
section
/-! SUPPORT. The decoder against the encoder's table, one opcode at a time. -/

namespace Sys2Proof

/-- The table in opcode order (R87) gives back every code of the table by mnemonic (R86). -/
theorem ofByte?_code (o : Opcode) : Opcode.ofByte? o.code = some o := by cases o <;> rfl

/-- The two tables name no other byte. -/
theorem code_of_ofByte? {b : Byte} {o : Opcode} (h : Opcode.ofByte? b = some o) : o.code = b := by
  apply BitVec.eq_of_toNat_eq
  unfold Opcode.ofByte? at h
  split at h <;> first | (cases h; simp_all [Opcode.code]) | cases h

theorem ofByte?_iff {b : Byte} {o : Opcode} : Opcode.ofByte? b = some o ↔ o.code = b :=
  ⟨code_of_ofByte?, fun h => h ▸ ofByte?_code o⟩

@[simp] theorem decodeOpcode_code (o : Opcode) : decodeOpcode o.code = (o.cls, o.operands) := by
  simp [decodeOpcode, ofByte?_code]

theorem decodeOpcode_none {b : Byte} (h : Opcode.ofByte? b = none) : decodeOpcode b = (.unrecognized, 0) := by
  simp [decodeOpcode, h]

theorem operands_le (o : Opcode) : o.operands ≤ 2 := by cases o <;> decide

theorem operandBytes_length (i : Instr) : i.operandBytes.length = i.opcode.operands := by cases i <;> rfl

/-- An instruction is its opcode with its operand bytes. -/
theorem build_operands (i : Instr) (a b : Byte) :
    (i.operandBytes = [] → i.opcode.build a b = i) ∧ (i.operandBytes = [a] → i.opcode.build a b = i) ∧
      (i.operandBytes = [a, b] → i.opcode.build a b = i) := by
  cases i <;> simp_all [Instr.operandBytes, Instr.opcode, Opcode.build]

theorem build_opcode (o : Opcode) (a b : Byte) : (o.build a b).opcode = o := by cases o <;> rfl

theorem build_operandBytes (o : Opcode) (a b : Byte) :
    (o.build a b).operandBytes = [a, b].take o.operands := by cases o <;> rfl

end Sys2Proof
end

