-- ==== Sys2Proof/Laws/Memory.lean ====
section
/-! SUPPORT. The laws of memory: a read after a write, and that every memory operation keeps the canonical form. -/

namespace Sys2Proof.Machine

/-! ### Lookup after insert -/

theorem lookupCell_consCell_ne {addr other : Nat} (h : other ≠ addr) (v : Byte) (rest : List Host.Cell) :
    lookupCell (consCell addr v rest) other = lookupCell rest other := by
  unfold consCell
  split
  · rfl
  · simp [lookupCell, h.symm]

theorem lookupCell_insertCell_ne {addr other : Nat} (h : other ≠ addr) (v : Byte) (cells : List Host.Cell) :
    lookupCell (insertCell cells addr v) other = lookupCell cells other := by
  induction cells with
  | nil => simp [insertCell, lookupCell_consCell_ne h]
  | cons c rest ih =>
    unfold insertCell
    split
    · simp only [lookupCell, ih]
    split
    · next hc => simp [lookupCell_consCell_ne h, lookupCell, hc, h.symm]
    · exact lookupCell_consCell_ne h v _

/-- An address below every listed one reads as unlisted. -/
theorem lookupCell_below {capacity low : Nat} {cells : List Host.Cell} (h : cellsOk capacity low cells = true)
    {addr : Nat} (ha : addr < low) : lookupCell cells addr = Config.unlistedByte := by
  induction cells generalizing low with
  | nil => rfl
  | cons c rest ih =>
    simp only [cellsOk, Bool.and_eq_true, decide_eq_true_eq] at h
    have : c.1 ≠ addr := by omega
    simp only [lookupCell, if_neg this]
    exact ih h.2 (by omega)

theorem lookupCell_consCell_self {addr : Nat} (v : Byte) {rest : List Host.Cell}
    (h : lookupCell rest addr = Config.unlistedByte) : lookupCell (consCell addr v rest) addr = v := by
  unfold consCell
  split
  · next hv => rw [h, hv]
  · simp [lookupCell]

theorem lookupCell_insertCell_self {capacity low addr : Nat} (v : Byte) {cells : List Host.Cell}
    (h : cellsOk capacity low cells = true) : lookupCell (insertCell cells addr v) addr = v := by
  induction cells generalizing low with
  | nil => exact lookupCell_consCell_self v rfl
  | cons c rest ih =>
    have h' := h
    simp only [cellsOk, Bool.and_eq_true, decide_eq_true_eq] at h
    unfold insertCell
    split
    · next hlt =>
      have : c.1 ≠ addr := by omega
      simp only [lookupCell, if_neg this, ih h.2]
    split
    · next hc => exact lookupCell_consCell_self v (lookupCell_below h.2 (by omega))
    · next h1 h2 =>
      have hlt : addr < c.1 := by omega
      have : c.1 ≠ addr := by omega
      refine lookupCell_consCell_self v ?_
      simp only [lookupCell, if_neg this]
      exact lookupCell_below h.2 (by omega)

/-! ### The canonical form -/

theorem cellsOk_weaken {capacity low low' : Nat} {cells : List Host.Cell} (h : cellsOk capacity low cells = true)
    (hl : low' ≤ low) : cellsOk capacity low' cells = true := by
  cases cells with
  | nil => rfl
  | cons c rest =>
    simp only [cellsOk, Bool.and_eq_true, decide_eq_true_eq] at h ⊢
    exact ⟨⟨⟨by omega, h.1.1.2⟩, h.1.2⟩, h.2⟩

theorem cellsOk_consCell {capacity low addr : Nat} (v : Byte) {rest : List Host.Cell} (hl : low ≤ addr)
    (hc : addr < capacity) (h : cellsOk capacity (addr + 1) rest = true) :
    cellsOk capacity low (consCell addr v rest) = true := by
  unfold consCell
  split
  · exact cellsOk_weaken h (by omega)
  · next hv => simp [cellsOk, hl, hc, hv, h]

theorem cellsOk_insertCell {capacity low addr : Nat} (v : Byte) {cells : List Host.Cell}
    (h : cellsOk capacity low cells = true) (hl : low ≤ addr) (hc : addr < capacity) :
    cellsOk capacity low (insertCell cells addr v) = true := by
  induction cells generalizing low with
  | nil => exact cellsOk_consCell v hl hc rfl
  | cons c rest ih =>
    have h' := h
    simp only [cellsOk, Bool.and_eq_true, decide_eq_true_eq] at h
    unfold insertCell
    split
    · next hlt =>
      simp only [cellsOk, Bool.and_eq_true, decide_eq_true_eq]
      exact ⟨h.1, ih h.2 (by omega)⟩
    split
    · next he => exact cellsOk_consCell v hl hc (he ▸ h.2)
    · next h1 h2 =>
      refine cellsOk_consCell v hl hc ?_
      simp only [cellsOk, Bool.and_eq_true, decide_eq_true_eq]
      exact ⟨⟨⟨by omega, h.1.1.2⟩, h.1.2⟩, h.2⟩

theorem Memory.wf_iff (m : Memory) :
    m.wf = true ↔ 1 ≤ m.capacity ∧ m.capacity ≤ 256 ∧ cellsOk m.capacity 0 m.cells = true := by
  simp only [Memory.wf, Bool.and_eq_true, decide_eq_true_eq, and_assoc]
  rfl

theorem Memory.empty_wf {capacity : Nat} (h1 : 1 ≤ capacity) (h2 : capacity ≤ 256) :
    (Memory.empty capacity).wf = true :=
  (Memory.wf_iff _).2 ⟨h1, h2, rfl⟩

/-! ### Read and write -/

theorem memRead_ok_iff {m : Memory} {addr : Nat} {v : Byte} :
    memRead m addr = .ok v ↔ addr < m.capacity ∧ lookupCell m.cells addr = v := by
  unfold memRead
  split <;> simp_all

theorem memRead_error_iff {m : Memory} {addr : Nat} {c : FaultCause} :
    memRead m addr = .error c ↔ m.capacity ≤ addr ∧ c = .memOutOfBounds addr := by
  unfold memRead
  split
  · simp; omega
  · simp_all [eq_comm]

theorem memWrite_error_iff {m : Memory} {addr : Nat} {v : Byte} {c : FaultCause} :
    memWrite m addr v = .error c ↔ m.capacity ≤ addr ∧ c = .memOutOfBounds addr := by
  unfold memWrite
  split
  · simp; omega
  · simp_all [eq_comm]

/-- Everything a write that succeeds does. -/
theorem memWrite_ok {m m' : Memory} {addr : Nat} {v : Byte} (h : memWrite m addr v = .ok m') :
    addr < m.capacity ∧ m'.capacity = m.capacity ∧ (∀ other, other ≠ addr → memRead m' other = memRead m other) ∧
      (m.wf = true → memRead m' addr = .ok v ∧ m'.wf = true) := by
  unfold memWrite at h
  split at h
  · next hlt =>
    cases h
    refine ⟨hlt, rfl, ?_, fun hwf => ?_⟩
    · intro other ho
      simp [memRead, lookupCell_insertCell_ne ho]
    · obtain ⟨h1, h2, h3⟩ := (Memory.wf_iff m).1 hwf
      exact ⟨memRead_ok_iff.2 ⟨hlt, lookupCell_insertCell_self v h3⟩,
        (Memory.wf_iff _).2 ⟨h1, h2, cellsOk_insertCell v h3 (by omega) hlt⟩⟩
  · cases h

theorem memWrite_isOk {m : Memory} {addr : Nat} (v : Byte) (h : addr < m.capacity) : ∃ m', memWrite m addr v = .ok m' :=
  ⟨_, if_pos h⟩

/-- What placing bytes that all fit does. -/
theorem placeBytes_spec {m : Memory} {addr : Nat} {bytes : List Byte} (hwf : m.wf = true)
    (h : addr + bytes.length ≤ m.capacity) :
    (placeBytes m addr bytes).wf = true ∧ (placeBytes m addr bytes).capacity = m.capacity ∧
      (∀ k (hk : k < bytes.length), memRead (placeBytes m addr bytes) (addr + k) = .ok bytes[k]) ∧
      (∀ other, other < addr ∨ addr + bytes.length ≤ other →
        memRead (placeBytes m addr bytes) other = memRead m other) := by
  induction bytes generalizing m addr with
  | nil => simp [placeBytes, hwf]
  | cons v rest ih =>
    simp only [List.length_cons] at h
    obtain ⟨m', hm⟩ := memWrite_isOk v (show addr < m.capacity by omega)
    obtain ⟨-, hcap, hother, hw⟩ := memWrite_ok hm
    obtain ⟨hself, hwf'⟩ := hw hwf
    obtain ⟨i1, i2, i3, i4⟩ := ih (addr := addr + 1) hwf' (by omega)
    simp only [placeBytes, hm]
    refine ⟨i1, i2.trans hcap, ?_, ?_⟩
    · intro k hk
      cases k with
      | zero => simpa using (i4 addr (by omega)).trans hself
      | succ k =>
        have := i3 k (by simpa using hk)
        simpa [Nat.add_comm, Nat.add_left_comm, Nat.add_assoc] using this
    · intro other ho
      simp only [List.length_cons] at ho
      exact (i4 other (by omega)).trans (hother other (by omega))

end Sys2Proof.Machine
end

