-- ==== Sys2Proof/Laws/State.lean ====
section
/-! SUPPORT. One lemma per field per update of State, so that no proof unfolds a record update, and the laws of the register
file. -/

namespace Sys2Proof.Machine

variable (s : State)

@[simp] theorem setReg_pc (r v) : (s.setReg r v).pc = s.pc := rfl
@[simp] theorem setReg_fl (r v) : (s.setReg r v).fl = s.fl := rfl
@[simp] theorem setReg_mem (r v) : (s.setReg r v).mem = s.mem := rfl
@[simp] theorem setReg_run (r v) : (s.setReg r v).run = s.run := rfl
@[simp] theorem setReg_fault (r v) : (s.setReg r v).fault = s.fault := rfl
@[simp] theorem setReg_out (r v) : (s.setReg r v).out = s.out := rfl

@[simp] theorem setPc_x (v) : (s.setPc v).x = s.x := rfl
@[simp] theorem setPc_pc (v) : (s.setPc v).pc = v := rfl
@[simp] theorem setPc_fl (v) : (s.setPc v).fl = s.fl := rfl
@[simp] theorem setPc_mem (v) : (s.setPc v).mem = s.mem := rfl
@[simp] theorem setPc_run (v) : (s.setPc v).run = s.run := rfl
@[simp] theorem setPc_fault (v) : (s.setPc v).fault = s.fault := rfl
@[simp] theorem setPc_out (v) : (s.setPc v).out = s.out := rfl

@[simp] theorem setFl_x (v) : (s.setFl v).x = s.x := rfl
@[simp] theorem setFl_pc (v) : (s.setFl v).pc = s.pc := rfl
@[simp] theorem setFl_fl (v) : (s.setFl v).fl = v := rfl
@[simp] theorem setFl_mem (v) : (s.setFl v).mem = s.mem := rfl
@[simp] theorem setFl_run (v) : (s.setFl v).run = s.run := rfl
@[simp] theorem setFl_fault (v) : (s.setFl v).fault = s.fault := rfl
@[simp] theorem setFl_out (v) : (s.setFl v).out = s.out := rfl

@[simp] theorem setMem_x (m) : (s.setMem m).x = s.x := rfl
@[simp] theorem setMem_pc (m) : (s.setMem m).pc = s.pc := rfl
@[simp] theorem setMem_fl (m) : (s.setMem m).fl = s.fl := rfl
@[simp] theorem setMem_mem (m) : (s.setMem m).mem = m := rfl
@[simp] theorem setMem_run (m) : (s.setMem m).run = s.run := rfl
@[simp] theorem setMem_fault (m) : (s.setMem m).fault = s.fault := rfl
@[simp] theorem setMem_out (m) : (s.setMem m).out = s.out := rfl

@[simp] theorem emit_x (e) : (s.emit e).x = s.x := rfl
@[simp] theorem emit_pc (e) : (s.emit e).pc = s.pc := rfl
@[simp] theorem emit_fl (e) : (s.emit e).fl = s.fl := rfl
@[simp] theorem emit_mem (e) : (s.emit e).mem = s.mem := rfl
@[simp] theorem emit_run (e) : (s.emit e).run = s.run := rfl
@[simp] theorem emit_fault (e) : (s.emit e).fault = s.fault := rfl
@[simp] theorem emit_out (e) : (s.emit e).out = s.out ++ [e] := rfl

@[simp] theorem halt_x : s.halt.x = s.x := rfl
@[simp] theorem halt_pc : s.halt.pc = s.pc := rfl
@[simp] theorem halt_fl : s.halt.fl = s.fl := rfl
@[simp] theorem halt_mem : s.halt.mem = s.mem := rfl
@[simp] theorem halt_run : s.halt.run = .halted := rfl
@[simp] theorem halt_fault : s.halt.fault = s.fault := rfl
@[simp] theorem halt_out : s.halt.out = s.out := rfl

@[simp] theorem raise_x (c) : (raise c s).x = s.x := rfl
@[simp] theorem raise_pc (c) : (raise c s).pc = s.pc := rfl
@[simp] theorem raise_fl (c) : (raise c s).fl = s.fl := rfl
@[simp] theorem raise_mem (c) : (raise c s).mem = s.mem := rfl
@[simp] theorem raise_run (c) : (raise c s).run = .faulted := rfl
@[simp] theorem raise_fault (c) : (raise c s).fault = some c := rfl
@[simp] theorem raise_out (c) : (raise c s).out = s.out := rfl

/-! ### The register file -/

@[simp] theorem setPc_reg (v r) : (s.setPc v).reg r = s.reg r := rfl
@[simp] theorem setFl_reg (v r) : (s.setFl v).reg r = s.reg r := rfl
@[simp] theorem setMem_reg (m r) : (s.setMem m).reg r = s.reg r := rfl
@[simp] theorem emit_reg (e r) : (s.emit e).reg r = s.reg r := rfl
@[simp] theorem halt_reg (r) : s.halt.reg r = s.reg r := rfl
@[simp] theorem raise_reg (c r) : (raise c s).reg r = s.reg r := rfl

@[simp] theorem setReg_reg_self (r v) : (s.setReg r v).reg r = v := by
  simp [State.reg, State.setReg]

theorem setReg_reg_ne {r r' : Fin 8} (v : Byte) (h : r' ≠ r) : (s.setReg r v).reg r' = s.reg r' := by
  have : r.val ≠ r'.val := fun e => h (Fin.ext e.symm)
  simp [State.reg, State.setReg, Vector.getElem_set_ne _ _ this]

theorem setReg_reg (r r' : Fin 8) (v : Byte) : (s.setReg r v).reg r' = if r' = r then v else s.reg r' := by
  split
  · next h => subst h; simp
  · next h => exact setReg_reg_ne s v h

theorem sp_eq : s.sp = s.reg 7 := rfl
theorem setSp_eq (v) : s.setSp v = s.setReg 7 v := rfl

/-! ### Advancing and transferring -/

theorem advance_eq (n) : s.advance n = s.setPc (s.pc + BitVec.ofNat 9 (n + 1)) := rfl
theorem transfer_eq (n t) : s.transfer n t = s.setPc (zext9 t) := rfl

@[simp] theorem zext9_toNat (v : Byte) : (zext9 v).toNat = v.toNat := by
  have := v.isLt
  simp only [zext9, BitVec.toNat_setWidth]
  omega

@[simp] theorem wrap8_toNat (v : Int) : ((wrap8 v).toNat : Int) = v % 256 := by
  simp only [wrap8, BitVec.toNat_ofInt]
  omega

end Sys2Proof.Machine
end

