-- ==== Sys2Proof/Laws/Ops.lean ====
section
/-! SUPPORT. What each shared operation can do, said once: on the byte of a register, and on an index of 8 or more. Later proofs
cite these and do not unfold the operations. -/

namespace Sys2Proof.Machine

/-! ### Sequencing -/

@[simp] theorem ok_bind {α β : Type} (a : α) (f : α → Except FaultCause β) : (Except.ok a >>= f) = f a := rfl
@[simp] theorem error_bind {α β : Type} (c : FaultCause) (f : α → Except FaultCause β) :
    ((Except.error c : Except FaultCause α) >>= f) = .error c := rfl
@[simp] theorem map_ok {α β : Type} (a : α) (f : α → β) : (f <$> (Except.ok a : Except FaultCause α)) = .ok (f a) := rfl
@[simp] theorem map_error {α β : Type} (c : FaultCause) (f : α → β) :
    (f <$> (Except.error c : Except FaultCause α)) = .error c := rfl
@[simp] theorem pure_ok {α : Type} (a : α) : (pure a : Except FaultCause α) = .ok a := rfl

@[simp] theorem settle_ok (s t : State) : settle s (.ok t) = .next t := rfl
@[simp] theorem settle_error (s : State) (c : FaultCause) : settle s (.error c) = .next (raise c s) := rfl

/-- An instruction's pseudocode ends in one of two ways. -/
theorem settle_next {s t : State} {r : Except FaultCause State} (h : settle s r = .next t) :
    r = .ok t ∨ ∃ c, r = .error c ∧ t = raise c s := by
  cases r with
  | ok u => exact .inl (by simpa using h)
  | error c => exact .inr ⟨c, rfl, by simpa using h.symm⟩

/-- An instruction's pseudocode always gives a next state. -/
theorem settle_isNext (s : State) (r : Except FaultCause State) : ∃ t, settle s r = .next t := by
  cases r <;> exact ⟨_, rfl⟩

/-! ### Register operands -/

theorem regByte_toNat (r : Fin 8) : (regByte r).toNat = r.val := by
  have := r.isLt
  simp only [regByte, BitVec.toNat_ofNat]
  omega

theorem regByte_lt (r : Fin 8) : (regByte r).toNat < 8 := by rw [regByte_toNat]; exact r.isLt

/-- An operand byte names a register or is out of range. -/
theorem regByte_or_ge (a : Byte) : (∃ r, a = regByte r) ∨ 8 ≤ a.toNat := by
  by_cases h : a.toNat < 8
  · exact .inl ⟨⟨a.toNat, h⟩, by simp [regByte]⟩
  · exact .inr (by omega)

theorem regByte_of_lt {a : Byte} (h : a.toNat < 8) : ∃ r, a = regByte r :=
  (regByte_or_ge a).resolve_right (by omega)

theorem regByte_inj {r r' : Fin 8} (h : regByte r = regByte r') : r = r' := by
  have := congrArg BitVec.toNat h
  simp only [regByte_toNat] at this
  exact Fin.ext this

@[simp] theorem regIndex_regByte (r : Fin 8) : regIndex (regByte r) = .ok r := by
  have h := regByte_lt r
  simp only [regIndex, dif_pos h]
  exact congrArg _ (Fin.ext (regByte_toNat r))

theorem regIndex_ge {i : Byte} (h : 8 ≤ i.toNat) : regIndex i = .error (.regOutOfBounds i) := by
  simp only [regIndex, dif_neg (Nat.not_lt.2 h)]

@[simp] theorem regRead_regByte (s : State) (r : Fin 8) : regRead s (regByte r) = .ok (s.reg r) := by
  simp [regRead]

@[simp] theorem regWrite_regByte (s : State) (r : Fin 8) (v : Byte) :
    regWrite s (regByte r) v = .ok (s.setReg r v) := by
  simp [regWrite]

theorem regRead_ge (s : State) {i : Byte} (h : 8 ≤ i.toNat) : regRead s i = .error (.regOutOfBounds i) := by
  simp [regRead, regIndex_ge h]

theorem regWrite_ge (s : State) {i : Byte} (v : Byte) (h : 8 ≤ i.toNat) :
    regWrite s i v = .error (.regOutOfBounds i) := by
  simp [regWrite, regIndex_ge h]

/-! ### The alu block -/

theorem alu_add (a b) : alu 0xA0#8 a b = .ok (.value (wrap8 (a.toNat + b.toNat))) := rfl
theorem alu_sub (a b) : alu 0xA1#8 a b = .ok (.value (wrap8 (a.toNat - b.toNat))) := rfl
theorem alu_mul (a b) : alu 0xA2#8 a b = .ok (.value (wrap8 (a.toNat * b.toNat))) := rfl
theorem alu_div (a b) : alu 0xA3#8 a b = if b.toNat = 0 then .error (.divideByZero 0xA3#8)
    else .ok (.value (wrap8 (a.toNat / b.toNat : Nat))) := rfl
theorem alu_mod (a b) : alu 0xA4#8 a b = if b.toNat = 0 then .error (.divideByZero 0xA4#8)
    else .ok (.value (wrap8 (a.toNat % b.toNat : Nat))) := rfl
theorem alu_inc (a b) : alu 0x65#8 a b = .ok (.value (wrap8 (a.toNat + 1))) := rfl
theorem alu_dec (a b) : alu 0x66#8 a b = .ok (.value (wrap8 (a.toNat - 1))) := rfl
theorem alu_and (a b) : alu 0xA8#8 a b = .ok (.value (a &&& b)) := rfl
theorem alu_or (a b) : alu 0xAA#8 a b = .ok (.value (a ||| b)) := rfl
theorem alu_xor (a b) : alu 0xAB#8 a b = .ok (.value (a ^^^ b)) := rfl
theorem alu_not (a b) : alu 0x69#8 a b = .ok (.value (wrap8 (255 - a.toNat))) := rfl
theorem alu_shl (a b) : alu 0xAC#8 a b = .ok (.value (shiftLeft a b)) := rfl
theorem alu_shr (a b) : alu 0xAD#8 a b = .ok (.value (shiftRight a b)) := rfl
theorem alu_cmp (a b) : alu 0xA7#8 a b = .ok { result := none, flags := some (compareFlags a b) } := rfl
theorem alu_st (a b) : alu 0x84#8 a b = .ok (.value b) := rfl

/-- What the engine makes of the ALU's output when operand A names register `r` (R126). -/
def applyAlu (s : State) (r : Fin 8) (out : AluOut) : State :=
  let s1 := match out.result with
    | some v => s.setReg r v
    | none => s
  match out.flags with
  | some f => s1.setFl f
  | none => s1

@[simp] theorem applyAlu_value (s : State) (r v) : applyAlu s r (.value v) = s.setReg r v := rfl
@[simp] theorem applyAlu_flags (s : State) (r f) : applyAlu s r { result := none, flags := some f } = s.setFl f := rfl

theorem writeAluOut_regByte (s : State) (r : Fin 8) (out : AluOut) :
    writeAluOut s (regByte r) out = .ok (applyAlu s r out) := by
  obtain ⟨result, flags⟩ := out
  cases result <;> cases flags <;> simp [writeAluOut, applyAlu]

/-- The binary arm on two registers. -/
theorem aluBinary_regByte (op : Byte) (ra rb : Fin 8) (s : State) :
    aluBinary op (regByte ra) (regByte rb) s =
      (alu op (s.reg ra) (s.reg rb)).map fun out => (applyAlu s ra out).advance 2 := by
  simp only [aluBinary, regRead_regByte, ok_bind, writeAluOut_regByte]
  cases alu op (s.reg ra) (s.reg rb) <;> rfl

theorem aluBinary_geA (op b : Byte) (s : State) {a : Byte} (h : 8 ≤ a.toNat) :
    aluBinary op a b s = .error (.regOutOfBounds a) := by
  simp [aluBinary, regRead_ge s h]

theorem aluBinary_geB (op : Byte) (r : Fin 8) (s : State) {b : Byte} (h : 8 ≤ b.toNat) :
    aluBinary op (regByte r) b s = .error (.regOutOfBounds b) := by
  simp [aluBinary, regRead_ge s h]

/-- The unary arm on a register. -/
theorem aluUnary_regByte (op : Byte) (r : Fin 8) (s : State) :
    aluUnary op (regByte r) s = (alu op (s.reg r) 0#8).map fun out => (applyAlu s r out).advance 1 := by
  simp only [aluUnary, regRead_regByte, ok_bind, writeAluOut_regByte]
  cases alu op (s.reg r) 0#8 <;> rfl

theorem aluUnary_ge (op : Byte) (s : State) {a : Byte} (h : 8 ≤ a.toNat) :
    aluUnary op a s = .error (.regOutOfBounds a) := by
  simp [aluUnary, regRead_ge s h]

/-! ### Immediate load and output -/

theorem loadImmediate_regByte (r : Fin 8) (imm : Byte) (s : State) :
    loadImmediate (regByte r) imm s = .ok ((s.setReg r imm).advance 2) := by
  simp [loadImmediate, literal]

theorem loadImmediate_ge (imm : Byte) (s : State) {a : Byte} (h : 8 ≤ a.toNat) :
    loadImmediate a imm s = .error (.regOutOfBounds a) := by
  simp [loadImmediate, regWrite_ge s _ h]

theorem printRegister_regByte (e : Byte → OutputEvent) (r : Fin 8) (s : State) :
    printRegister e (regByte r) s = .ok ((s.emit (e (s.reg r))).advance 1) := by
  simp [printRegister]

theorem printRegister_ge (e : Byte → OutputEvent) (s : State) {a : Byte} (h : 8 ≤ a.toNat) :
    printRegister e a s = .error (.regOutOfBounds a) := by
  simp [printRegister, regRead_ge s h]

/-! ### Stack -/

theorem pushAddr_eq (s : State) : pushAddr s = (s.sp.toNat + 255) % 256 := by
  have h := wrap8_toNat ((s.sp.toNat : Int) - 1)
  simp only [pushAddr]
  omega

theorem pushAddr_lt (s : State) : pushAddr s < 256 := by rw [pushAddr_eq]; omega

/-- Everything a push can do. -/
theorem push_cases (v : Byte) (s : State) :
    (s.mem.capacity ≤ pushAddr s ∧ push v s = .error (.memOutOfBounds (pushAddr s))) ∨
      (∃ m, memWrite s.mem (pushAddr s) v = .ok m ∧
        push v s = .ok ((s.setMem m).setReg 7 (wrap8 (s.sp.toNat - 1)))) := by
  cases h : memWrite s.mem (pushAddr s) v with
  | error c =>
    obtain ⟨hc, rfl⟩ := memWrite_error_iff.1 h
    exact .inl ⟨hc, by simp [push, h]⟩
  | ok m => exact .inr ⟨m, rfl, by simp [push, h, setSp_eq]⟩

/-- Everything a pop can do. -/
theorem pop_cases (s : State) :
    (s.mem.capacity ≤ s.sp.toNat ∧ pop s = .error (.memOutOfBounds s.sp.toNat)) ∨
      (∃ v, memRead s.mem s.sp.toNat = .ok v ∧ pop s = .ok (v, s.setReg 7 (wrap8 (s.sp.toNat + 1)))) := by
  cases h : memRead s.mem s.sp.toNat with
  | error c =>
    obtain ⟨hc, rfl⟩ := memRead_error_iff.1 h
    exact .inl ⟨hc, by simp [pop, h]⟩
  | ok v => exact .inr ⟨v, rfl, by simp [pop, h, setSp_eq]⟩

theorem pushRegister_regByte (r : Fin 8) (s : State) :
    pushRegister (regByte r) s = (push (s.reg r) s).map fun t => t.advance 1 := by
  simp only [pushRegister, regRead_regByte, ok_bind]
  cases push (s.reg r) s <;> rfl

theorem pushRegister_ge (s : State) {a : Byte} (h : 8 ≤ a.toNat) :
    pushRegister a s = .error (.regOutOfBounds a) := by
  simp [pushRegister, regRead_ge s h]

theorem popRegister_eq (a : Byte) (s : State) :
    popRegister a s = (pop s).bind fun p => (regWrite p.2 a p.1).map fun t => t.advance 1 := by
  simp only [popRegister]
  cases pop s with
  | error c => rfl
  | ok p => cases h : regWrite p.2 a p.1 <;> simp [h, Except.bind, Except.map]

theorem callRegister_eq (a : Byte) (s : State) :
    callRegister a s = (push (returnAddress s) s).bind fun t => (regRead t a).map fun v => t.transfer 1 v := by
  simp only [callRegister]
  cases push (returnAddress s) s with
  | error c => rfl
  | ok t => cases h : regRead t a <;> simp [h, Except.bind, Except.map]

theorem returnFromCall_eq (s : State) : returnFromCall s = (pop s).map fun p => p.2.transfer 0 p.1 := by
  simp only [returnFromCall]
  cases pop s <;> rfl

/-! ### Jumps -/

theorem jump_notTaken {op : Byte} {s : State} (h : cond op s.fl = false) (a : Byte) :
    jump op a s = .ok (s.advance 1) := by
  simp [jump, h]

theorem jump_taken {op : Byte} {s : State} (h : cond op s.fl = true) (r : Fin 8) :
    jump op (regByte r) s = .ok (s.transfer 1 (s.reg r)) := by
  simp [jump, h]

theorem jump_taken_ge {op : Byte} {s : State} (h : cond op s.fl = true) {a : Byte} (ha : 8 ≤ a.toNat) :
    jump op a s = .error (.regOutOfBounds a) := by
  simp [jump, h, regRead_ge s ha]

theorem cond_jmp (fl) : cond 0x54#8 fl = true := rfl
theorem cond_jeq (fl) : cond 0x55#8 fl = flagE fl := rfl
theorem cond_jne (fl) : cond 0x56#8 fl = !flagE fl := rfl
theorem cond_jgt (fl) : cond 0x57#8 fl = flagG fl := rfl
theorem cond_jlt (fl) : cond 0x58#8 fl = flagL fl := rfl
theorem cond_jle (fl) : cond 0x59#8 fl = (flagE fl || flagL fl) := rfl
theorem cond_jge (fl) : cond 0x5A#8 fl = (flagE fl || flagG fl) := rfl

/-- The flags CMP writes are one of three patterns, by the unsigned relation. -/
theorem compareFlags_cases (a b : Byte) :
    (a.toNat = b.toNat ∧ compareFlags a b = 0b00000001#8) ∨ (a.toNat < b.toNat ∧ compareFlags a b = 0b00000100#8) ∨
      (b.toNat < a.toNat ∧ compareFlags a b = 0b00000010#8) := by
  unfold compareFlags
  split
  · exact .inl ⟨‹_›, rfl⟩
  split
  · exact .inr (.inl ⟨‹_›, rfl⟩)
  · exact .inr (.inr ⟨by omega, rfl⟩)

end Sys2Proof.Machine
end

