-- ==== Sys2Proof/Laws/Exec.lean ====
section
/-! SUPPORT. Every instruction settles its pseudocode: one lemma under which all of `exec` is cited. -/

namespace Sys2Proof.Machine

/-- The pseudocode of each instruction, before it is settled. -/
def pseudocode (i : Instr) (s : State) : Except FaultCause State :=
  match i with
  | .nop => .ok (s.advance 0)
  | .hlt => .ok s.halt
  | .ret => returnFromCall s
  | .iret => .ok (unrecognized 0x13#8 s)
  | .int => .ok (unrecognized 0x52#8 s)
  | .ld => .ok (unrecognized 0x83#8 s)
  | .inc a => aluUnary 0x65#8 a s
  | .dec a => aluUnary 0x66#8 a s
  | .not a => aluUnary 0x69#8 a s
  | .prn a => printRegister .printNum a s
  | .pra a => printRegister .printChar a s
  | .call a => callRegister a s
  | .jmp a => jump 0x54#8 a s
  | .jeq a => jump 0x55#8 a s
  | .jne a => jump 0x56#8 a s
  | .jgt a => jump 0x57#8 a s
  | .jlt a => jump 0x58#8 a s
  | .jle a => jump 0x59#8 a s
  | .jge a => jump 0x5A#8 a s
  | .pop a => popRegister a s
  | .push a => pushRegister a s
  | .ldi a imm => loadImmediate a imm s
  | .st a b => aluBinary 0x84#8 a b s
  | .add a b => aluBinary 0xA0#8 a b s
  | .sub a b => aluBinary 0xA1#8 a b s
  | .mul a b => aluBinary 0xA2#8 a b s
  | .div a b => aluBinary 0xA3#8 a b s
  | .mod a b => aluBinary 0xA4#8 a b s
  | .cmp a b => aluBinary 0xA7#8 a b s
  | .and a b => aluBinary 0xA8#8 a b s
  | .or a b => aluBinary 0xAA#8 a b s
  | .xor a b => aluBinary 0xAB#8 a b s
  | .shl a b => aluBinary 0xAC#8 a b s
  | .shr a b => aluBinary 0xAD#8 a b s

theorem exec_eq_settle (i : Instr) (s : State) : exec i s = settle s (pseudocode i s) := by cases i <;> rfl

/-- An instruction that ends in a next state completed its pseudocode or took the fault it raised. -/
theorem exec_next {i : Instr} {s t : State} (h : exec i s = .next t) :
    pseudocode i s = .ok t ∨ ∃ c, pseudocode i s = .error c ∧ t = raise c s :=
  settle_next (exec_eq_settle i s ▸ h)

end Sys2Proof.Machine
end

