-- ==== Sys2Proof/Laws/Fetch.lean ====
section
/-! SUPPORT. Everything the fetch unit can do, said once. -/

namespace Sys2Proof.Machine

/-- The opcode fetch fails exactly outside memory. -/
theorem fetch_outside {s : State} (h : s.mem.capacity ≤ s.pc.toNat) :
    fetch s = .error (.memOutOfBounds s.pc.toNat) := by
  have : memRead s.mem s.pc.toNat = .error (.memOutOfBounds s.pc.toNat) := memRead_error_iff.2 ⟨h, rfl⟩
  simp [fetch, this]

theorem fetch_unassigned {s : State} {ir : Byte} (h : memRead s.mem s.pc.toNat = .ok ir)
    (hir : Opcode.ofByte? ir = none) : fetch s = .ok (.unassigned ir) := by
  simp [fetch, h, hir]

theorem fetch_opcode {s : State} {o : Opcode} (h : memRead s.mem s.pc.toNat = .ok o.code) :
    fetch s = (fetchOperands s o.operands).map fun p => .instr (o.build p.1 p.2) := by
  simp only [fetch, h, ok_bind, ofByte?_code, decodeOpcode_code]
  cases fetchOperands s o.operands <;> rfl

theorem fetchOperands_zero (s : State) : fetchOperands s 0 = .ok (0#8, 0#8) := rfl

theorem fetchOperands_one (s : State) :
    fetchOperands s 1 = (memRead s.mem (s.pc.toNat + 1)).map fun a => (a, 0#8) := by
  simp only [fetchOperands]
  cases h : memRead s.mem (s.pc.toNat + 1) <;> simp [Except.map]

theorem fetchOperands_two (s : State) :
    fetchOperands s 2 = (memRead s.mem (s.pc.toNat + 1)).bind fun a =>
      (memRead s.mem (s.pc.toNat + 2)).map fun b => (a, b) := by
  simp only [fetchOperands]
  cases h : memRead s.mem (s.pc.toNat + 1) <;> cases h' : memRead s.mem (s.pc.toNat + 2) <;>
    simp [Except.map, Except.bind]

/-- Everything a fetch can do: the opcode fetch fails; the byte is unassigned; or it is an opcode, whose operand fetches fail
at the first address outside memory, or give the instruction. -/
theorem fetch_cases (s : State) :
    (s.mem.capacity ≤ s.pc.toNat ∧ fetch s = .error (.memOutOfBounds s.pc.toNat)) ∨
    (∃ ir, memRead s.mem s.pc.toNat = .ok ir ∧ Opcode.ofByte? ir = none ∧ fetch s = .ok (.unassigned ir)) ∨
    (∃ o : Opcode, memRead s.mem s.pc.toNat = .ok o.code ∧
      ((1 ≤ o.operands ∧ s.mem.capacity ≤ s.pc.toNat + 1 ∧ fetch s = .error (.memOutOfBounds (s.pc.toNat + 1))) ∨
        (o.operands = 2 ∧ s.pc.toNat + 1 < s.mem.capacity ∧ s.mem.capacity ≤ s.pc.toNat + 2 ∧
          fetch s = .error (.memOutOfBounds (s.pc.toNat + 2))) ∨
        (∃ a b, (1 ≤ o.operands → memRead s.mem (s.pc.toNat + 1) = .ok a) ∧
          (o.operands = 2 → memRead s.mem (s.pc.toNat + 2) = .ok b) ∧ fetch s = .ok (.instr (o.build a b))))) := by
  cases h : memRead s.mem s.pc.toNat with
  | error c =>
    have hc := (memRead_error_iff.1 h).1
    exact .inl ⟨hc, fetch_outside hc⟩
  | ok ir =>
    refine .inr ?_
    cases hir : Opcode.ofByte? ir with
    | none => exact .inl ⟨ir, rfl, hir, fetch_unassigned h hir⟩
    | some o =>
      rw [← code_of_ofByte? hir] at h
      refine .inr ⟨o, by rw [code_of_ofByte? hir], ?_⟩
      rw [fetch_opcode h]
      have hle := operands_le o
      obtain hn | hn | hn : o.operands = 0 ∨ o.operands = 1 ∨ o.operands = 2 := by omega
      · exact .inr (.inr ⟨0#8, 0#8, by omega, by omega, by simp [hn, fetchOperands_zero, Except.map]⟩)
      · rw [hn, fetchOperands_one]
        cases h1 : memRead s.mem (s.pc.toNat + 1) with
        | error c =>
          obtain ⟨hc, rfl⟩ := memRead_error_iff.1 h1
          exact .inl ⟨by omega, hc, rfl⟩
        | ok a => exact .inr (.inr ⟨a, 0#8, fun _ => rfl, by omega, rfl⟩)
      · rw [hn, fetchOperands_two]
        cases h1 : memRead s.mem (s.pc.toNat + 1) with
        | error c =>
          obtain ⟨hc, rfl⟩ := memRead_error_iff.1 h1
          exact .inl ⟨by omega, hc, rfl⟩
        | ok a =>
          cases h2 : memRead s.mem (s.pc.toNat + 2) with
          | error c =>
            obtain ⟨hc, rfl⟩ := memRead_error_iff.1 h2
            exact .inr (.inl ⟨rfl, (memRead_ok_iff.1 h1).1, hc, rfl⟩)
          | ok b => exact .inr (.inr ⟨a, b, fun _ => rfl, fun _ => rfl, rfl⟩)

/-! ### The step -/

theorem step_fetchError {s : State} {c : FaultCause} (h : s.run = .running) (hf : fetch s = .error c) :
    step s = .next (raise c s) := by
  simp only [step, h, hf]

theorem step_instr {s : State} {i : Instr} (h : s.run = .running) (hf : fetch s = .ok (.instr i)) :
    step s = exec i s := by
  simp only [step, h, hf]

theorem step_unassigned {s : State} {ir : Byte} (h : s.run = .running) (hf : fetch s = .ok (.unassigned ir)) :
    step s = execUnassigned ir s := by
  simp only [step, h, hf]

/-- Only a RUNNING core takes a step. -/
theorem running_of_step {s t : State} (h : step s = .next t) : s.run = .running := by
  unfold step at h
  split at h
  · cases h
  · cases h
  · assumption

end Sys2Proof.Machine
end

