-- ==== Sys2Proof/Laws/PerInstr.lean ====
section
/-! SUPPORT. Statements made of every instruction, one lemma per constructor: an instruction's encoding is as long as the
decoder says the unit its opcode byte starts is, and begins with that byte (spec/30_encoding.md R80, R94). -/

/-- The encoding starts with the opcode's code and has the length the decoder takes from it. -/
def Sys2Proof.Laws.EncodedLength.Statement (i : Sys2Proof.Instr) : Prop :=
  (Sys2Proof.encode i).head? = some i.opcode.code ∧
    (Sys2Proof.encode i).length = Sys2Proof.unitLength i.opcode.code

namespace Sys2Proof.Laws.EncodedLength

theorem nop : Statement .nop := ⟨rfl, rfl⟩
theorem hlt : Statement .hlt := ⟨rfl, rfl⟩
theorem ret : Statement .ret := ⟨rfl, rfl⟩
theorem iret : Statement .iret := ⟨rfl, rfl⟩
theorem inc (a : Byte) : Statement (.inc a) := ⟨rfl, rfl⟩
theorem dec (a : Byte) : Statement (.dec a) := ⟨rfl, rfl⟩
theorem prn (a : Byte) : Statement (.prn a) := ⟨rfl, rfl⟩
theorem pra (a : Byte) : Statement (.pra a) := ⟨rfl, rfl⟩
theorem call (a : Byte) : Statement (.call a) := ⟨rfl, rfl⟩
theorem int : Statement .int := ⟨rfl, rfl⟩
theorem jmp (a : Byte) : Statement (.jmp a) := ⟨rfl, rfl⟩
theorem jeq (a : Byte) : Statement (.jeq a) := ⟨rfl, rfl⟩
theorem jne (a : Byte) : Statement (.jne a) := ⟨rfl, rfl⟩
theorem jgt (a : Byte) : Statement (.jgt a) := ⟨rfl, rfl⟩
theorem jlt (a : Byte) : Statement (.jlt a) := ⟨rfl, rfl⟩
theorem jle (a : Byte) : Statement (.jle a) := ⟨rfl, rfl⟩
theorem jge (a : Byte) : Statement (.jge a) := ⟨rfl, rfl⟩
theorem not (a : Byte) : Statement (.not a) := ⟨rfl, rfl⟩
theorem pop (a : Byte) : Statement (.pop a) := ⟨rfl, rfl⟩
theorem push (a : Byte) : Statement (.push a) := ⟨rfl, rfl⟩
theorem ldi (a imm : Byte) : Statement (.ldi a imm) := ⟨rfl, rfl⟩
theorem ld : Statement .ld := ⟨rfl, rfl⟩
theorem st (a b : Byte) : Statement (.st a b) := ⟨rfl, rfl⟩
theorem add (a b : Byte) : Statement (.add a b) := ⟨rfl, rfl⟩
theorem sub (a b : Byte) : Statement (.sub a b) := ⟨rfl, rfl⟩
theorem mul (a b : Byte) : Statement (.mul a b) := ⟨rfl, rfl⟩
theorem div (a b : Byte) : Statement (.div a b) := ⟨rfl, rfl⟩
theorem mod (a b : Byte) : Statement (.mod a b) := ⟨rfl, rfl⟩
theorem and (a b : Byte) : Statement (.and a b) := ⟨rfl, rfl⟩
theorem or (a b : Byte) : Statement (.or a b) := ⟨rfl, rfl⟩
theorem xor (a b : Byte) : Statement (.xor a b) := ⟨rfl, rfl⟩
theorem shl (a b : Byte) : Statement (.shl a b) := ⟨rfl, rfl⟩
theorem shr (a b : Byte) : Statement (.shr a b) := ⟨rfl, rfl⟩
theorem cmp (a b : Byte) : Statement (.cmp a b) := ⟨rfl, rfl⟩

end Sys2Proof.Laws.EncodedLength
end

