-- ==== Sys2Proof/Tests/Slice0.lean ====
section
/-! SUPPORT. The model's own tests: the checks of WellFormed, the decoding of every row of R86 from its bits, one step or two
of every instruction, and for every obligation with hypotheses a witness that meets them. Expected results come from
spec/95_test_vectors.md (the vector's section or name stands beside each test) or from the rule named. -/

namespace Sys2Proof.Tests

open Sys2Proof.Machine

/-! ### Helpers -/

/-- The core after a launch of the image with the given capacity. -/
def launch (capacity : Nat) (image : List Byte) : State := (boot capacity image).getD State.reset

/-- The state after reset with two registers set. -/
def regs (a b : Byte) : State := (State.reset.setReg 0 a).setReg 1 b

/-- The outcome is a next state of which `p` holds. -/
def ends (o : Host.Outcome State Fault Refusal) (p : State → Bool) : Bool :=
  match o with
  | .next t => p t
  | _ => false

/-- The outcome is a next state that differs from `s` by the fault record `c` and by FAULTED alone. -/
def faults (s : State) (o : Host.Outcome State Fault Refusal) (c : FaultCause) : Bool :=
  ends o fun t => decide (t = { s with run := .faulted, fault := some c })

/-- The register's value after an instruction from which the run goes on, at the given `pc`. -/
def gives (i : Instr) (s : State) (r : Fin 8) (v : Byte) (pc : PcWord) : Bool :=
  ends (exec i s) fun t => decide (t.reg r = v) && decide (t.pc = pc) && decide (t.fl = s.fl) && decide (t.run = .running)

/-! ### WellFormed: an ill-formed term for each check -/

theorem test_wellFormed_operandA :
    Instr.wellFormed (.inc 0x08#8) = false ∧ Instr.wellFormed (.dec 0x08#8) = false ∧
    Instr.wellFormed (.prn 0x08#8) = false ∧ Instr.wellFormed (.pra 0x08#8) = false ∧
    Instr.wellFormed (.call 0x08#8) = false ∧ Instr.wellFormed (.not 0x08#8) = false ∧
    Instr.wellFormed (.pop 0x08#8) = false ∧ Instr.wellFormed (.push 0xFF#8) = false ∧
    Instr.wellFormed (.ldi 0x08#8 0x00#8) = false := by decide

theorem test_wellFormed_jumps :
    Instr.wellFormed (.jmp 0x08#8) = false ∧ Instr.wellFormed (.jeq 0x08#8) = false ∧
    Instr.wellFormed (.jne 0x08#8) = false ∧ Instr.wellFormed (.jgt 0x08#8) = false ∧
    Instr.wellFormed (.jlt 0x08#8) = false ∧ Instr.wellFormed (.jle 0x08#8) = false ∧
    Instr.wellFormed (.jge 0x08#8) = false := by decide

theorem test_wellFormed_binaryA :
    Instr.wellFormed (.st 0x08#8 0x00#8) = false ∧ Instr.wellFormed (.add 0x08#8 0x00#8) = false ∧
    Instr.wellFormed (.sub 0x08#8 0x00#8) = false ∧ Instr.wellFormed (.mul 0x08#8 0x00#8) = false ∧
    Instr.wellFormed (.div 0x08#8 0x00#8) = false ∧ Instr.wellFormed (.mod 0x08#8 0x00#8) = false ∧
    Instr.wellFormed (.and 0x08#8 0x00#8) = false ∧ Instr.wellFormed (.or 0x08#8 0x00#8) = false ∧
    Instr.wellFormed (.xor 0x08#8 0x00#8) = false ∧ Instr.wellFormed (.shl 0x08#8 0x00#8) = false ∧
    Instr.wellFormed (.shr 0x08#8 0x00#8) = false ∧ Instr.wellFormed (.cmp 0x08#8 0x00#8) = false := by decide

theorem test_wellFormed_binaryB :
    Instr.wellFormed (.st 0x00#8 0x08#8) = false ∧ Instr.wellFormed (.add 0x00#8 0x08#8) = false ∧
    Instr.wellFormed (.sub 0x00#8 0x08#8) = false ∧ Instr.wellFormed (.mul 0x00#8 0x08#8) = false ∧
    Instr.wellFormed (.div 0x00#8 0x08#8) = false ∧ Instr.wellFormed (.mod 0x00#8 0x08#8) = false ∧
    Instr.wellFormed (.and 0x00#8 0x08#8) = false ∧ Instr.wellFormed (.or 0x00#8 0x08#8) = false ∧
    Instr.wellFormed (.xor 0x00#8 0x08#8) = false ∧ Instr.wellFormed (.shl 0x00#8 0x08#8) = false ∧
    Instr.wellFormed (.shr 0x00#8 0x08#8) = false ∧ Instr.wellFormed (.cmp 0x00#8 0x08#8) = false := by decide

/-- The literal of LDI is any byte, and the instructions of no operand are always well-formed. -/
theorem test_wellFormed_accepts :
    Instr.wellFormed (.ldi 0x07#8 0xFF#8) = true ∧ Instr.wellFormed (.add 0x07#8 0x07#8) = true ∧
    Instr.wellFormed (.push 0x07#8) = true ∧ Instr.wellFormed .nop = true ∧ Instr.wellFormed .ld = true := by decide

/-! ### Decoding, from the "Encoding (binary)" column of R86 -/

theorem test_decode_engine :
    decode [0b00000000#8] = .instr .nop [] ∧ decode [0b00000001#8] = .instr .hlt [] ∧
    decode [0b00010001#8] = .instr .ret [] := by decide

/-- C4: a reserved opcode is one byte long; what follows it is the next instruction. -/
theorem test_decode_reserved :
    decode [0b00010011#8, 0x01#8] = .instr .iret [0x01#8] ∧ decode [0b01010010#8, 0x01#8] = .instr .int [0x01#8] ∧
    decode [0b10000011#8, 0x00#8, 0x01#8] = .instr .ld [0x00#8, 0x01#8] := by decide

theorem test_decode_unary :
    decode [0b01100101#8, 0x02#8] = .instr (.inc 0x02#8) [] ∧ decode [0b01100110#8, 0x02#8] = .instr (.dec 0x02#8) [] ∧
    decode [0b01101001#8, 0x02#8] = .instr (.not 0x02#8) [] ∧ decode [0b01000111#8, 0x03#8] = .instr (.prn 0x03#8) [] ∧
    decode [0b01001000#8, 0x03#8] = .instr (.pra 0x03#8) [] ∧ decode [0b01000101#8, 0x04#8] = .instr (.push 0x04#8) [] ∧
    decode [0b01000110#8, 0x05#8] = .instr (.pop 0x05#8) [] ∧ decode [0b01010000#8, 0x06#8] = .instr (.call 0x06#8) [] := by
  decide

theorem test_decode_jumps :
    decode [0b01010100#8, 0x07#8] = .instr (.jmp 0x07#8) [] ∧ decode [0b01010101#8, 0x07#8] = .instr (.jeq 0x07#8) [] ∧
    decode [0b01010110#8, 0x07#8] = .instr (.jne 0x07#8) [] ∧ decode [0b01010111#8, 0x07#8] = .instr (.jgt 0x07#8) [] ∧
    decode [0b01011000#8, 0x07#8] = .instr (.jlt 0x07#8) [] ∧ decode [0b01011001#8, 0x07#8] = .instr (.jle 0x07#8) [] ∧
    decode [0b01011010#8, 0x07#8] = .instr (.jge 0x07#8) [] := by decide

/-- Operand A is the byte after the opcode and operand B the one after it. -/
theorem test_decode_arithmetic :
    decode [0b10100000#8, 0x01#8, 0x02#8] = .instr (.add 0x01#8 0x02#8) [] ∧
    decode [0b10100001#8, 0x01#8, 0x02#8] = .instr (.sub 0x01#8 0x02#8) [] ∧
    decode [0b10100010#8, 0x01#8, 0x02#8] = .instr (.mul 0x01#8 0x02#8) [] ∧
    decode [0b10100011#8, 0x01#8, 0x02#8] = .instr (.div 0x01#8 0x02#8) [] ∧
    decode [0b10100100#8, 0x01#8, 0x02#8] = .instr (.mod 0x01#8 0x02#8) [] ∧
    decode [0b10100111#8, 0x01#8, 0x02#8] = .instr (.cmp 0x01#8 0x02#8) [] := by decide

theorem test_decode_logic :
    decode [0b10101000#8, 0x01#8, 0x02#8] = .instr (.and 0x01#8 0x02#8) [] ∧
    decode [0b10101010#8, 0x01#8, 0x02#8] = .instr (.or 0x01#8 0x02#8) [] ∧
    decode [0b10101011#8, 0x01#8, 0x02#8] = .instr (.xor 0x01#8 0x02#8) [] ∧
    decode [0b10101100#8, 0x01#8, 0x02#8] = .instr (.shl 0x01#8 0x02#8) [] ∧
    decode [0b10101101#8, 0x01#8, 0x02#8] = .instr (.shr 0x01#8 0x02#8) [] ∧
    decode [0b10000100#8, 0x01#8, 0x02#8] = .instr (.st 0x01#8 0x02#8) [] ∧
    decode [0b10000010#8, 0x01#8, 0x82#8] = .instr (.ldi 0x01#8 0x82#8) [] := by decide

/-- 95_test_vectors section 5: gaps of the table, and bytes whose top two bits are 11. -/
theorem test_decode_rejects :
    decode [0xC0#8, 0x01#8] = .reject (.unassigned 0xC0#8) ∧ decode [0x02#8] = .reject (.unassigned 0x02#8) ∧
    decode [0x5B#8] = .reject (.unassigned 0x5B#8) ∧ decode [0xA9#8] = .reject (.unassigned 0xA9#8) ∧
    decode [0xFF#8] = .reject (.unassigned 0xFF#8) ∧ decode [] = .reject .noBytes ∧
    decode [0x82#8, 0x00#8] = .reject (.truncated 0x82#8) ∧ decode [0x45#8] = .reject (.truncated 0x45#8) := by decide

/-- The last line of 95_test_vectors: 34 bytes in the table, 225 that are UNRECOGNIZED. -/
theorem test_decode_counts :
    ((List.range 256).filter fun n => (Opcode.ofByte? (BitVec.ofNat 8 n)).isSome).length = 34 ∧
    ((List.range 256).filter fun n => (decodeOpcode (BitVec.ofNat 8 n)).1 = .unrecognized).length = 225 := by
  decide +kernel

/-- Bit 0 of a table word is the opcode's; the bytes above `nbits` are 0. -/
theorem test_decodeTableWord :
    decodeTableWord 24 0x0800A0 = some (.add 0x00#8 0x08#8) ∧ decodeTableWord 16 0x0345 = some (.push 0x03#8) ∧
    decodeTableWord 8 0xA0 = some (.add 0x00#8 0x00#8) ∧ decodeTableWord 8 0x83 = some .ld ∧
    decodeTableWord 8 0xFF = none := by decide

/-- 95_test_vectors P1 and P2, the assembly beside the bytes. -/
theorem test_assembly :
    Instr.assembly (.ldi 0x00#8 0x08#8) = "LDI R0, 8" ∧ Instr.assembly (.prn 0x00#8) = "PRN R0" ∧
    Instr.assembly .hlt = "HLT" ∧ Instr.assembly (.mul 0x00#8 0x01#8) = "MUL R0, R1" := by decide

/-- R97 and P1: the bytes of `LDI R0, 8`. -/
theorem test_encode : encode (.ldi 0x00#8 0x08#8) = [0x82#8, 0x00#8, 0x08#8] ∧ encode .ret = [0x11#8] := by decide

/-! ### The alu, 95_test_vectors sections 2.1 to 2.5 -/

theorem test_add : gives (.add 0x00#8 0x01#8) (regs 200#8 100#8) 0 44#8 3#9 = true := by decide
theorem test_add_sameRegister : gives (.add 0x02#8 0x02#8) (State.reset.setReg 2 200#8) 2 144#8 3#9 = true := by decide
theorem test_sub : gives (.sub 0x00#8 0x01#8) (regs 5#8 6#8) 0 255#8 3#9 = true := by decide
theorem test_mul : gives (.mul 0x00#8 0x01#8) (regs 255#8 255#8) 0 1#8 3#9 = true := by decide
theorem test_mul_wraps : gives (.mul 0x00#8 0x01#8) (regs 20#8 13#8) 0 4#8 3#9 = true := by decide
theorem test_div : gives (.div 0x00#8 0x01#8) (regs 30#8 7#8) 0 4#8 3#9 = true := by decide
theorem test_div_byZero : faults (regs 200#8 0#8) (exec (.div 0x00#8 0x01#8) (regs 200#8 0#8)) (.divideByZero 0xA3#8) = true := by
  decide
theorem test_mod : gives (.mod 0x00#8 0x01#8) (regs 128#8 3#8) 0 2#8 3#9 = true := by decide
theorem test_mod_byZero : faults (regs 0#8 0#8) (exec (.mod 0x00#8 0x01#8) (regs 0#8 0#8)) (.divideByZero 0xA4#8) = true := by
  decide
theorem test_and : gives (.and 0x00#8 0x01#8) (regs 0xCC#8 0xAA#8) 0 0x88#8 3#9 = true := by decide
theorem test_or : gives (.or 0x00#8 0x01#8) (regs 0xCC#8 0xAA#8) 0 0xEE#8 3#9 = true := by decide
theorem test_xor : gives (.xor 0x00#8 0x01#8) (regs 0xCC#8 0xAA#8) 0 0x66#8 3#9 = true := by decide
theorem test_shl : gives (.shl 0x00#8 0x01#8) (regs 0x81#8 1#8) 0 0x02#8 3#9 = true := by decide
theorem test_shl_largeCount : gives (.shl 0x00#8 0x01#8) (regs 0x03#8 9#8) 0 0x00#8 3#9 = true := by decide
theorem test_shr : gives (.shr 0x00#8 0x01#8) (regs 0x80#8 7#8) 0 0x01#8 3#9 = true := by decide
theorem test_shr_largeCount : gives (.shr 0x00#8 0x01#8) (regs 0x80#8 8#8) 0 0x00#8 3#9 = true := by decide
theorem test_st : gives (.st 0x00#8 0x01#8) (regs 1#8 99#8) 0 99#8 3#9 = true := by decide
theorem test_st_indexB : faults State.reset (exec (.st 0x00#8 0x09#8) State.reset) (.regOutOfBounds 9#8) = true := by decide
theorem test_inc : gives (.inc 0x02#8) (State.reset.setReg 2 255#8) 2 0#8 2#9 = true := by decide
theorem test_inc_stackPointer : gives (.inc 0x07#8) State.reset 7 0xF5#8 2#9 = true := by decide
theorem test_dec : gives (.dec 0x02#8) (State.reset.setReg 2 0#8) 2 255#8 2#9 = true := by decide
theorem test_dec_index : faults State.reset (exec (.dec 0xFF#8) State.reset) (.regOutOfBounds 255#8) = true := by decide
theorem test_not : gives (.not 0x02#8) (State.reset.setReg 2 0x0F#8) 2 0xF0#8 2#9 = true := by decide

/-- Section 2.4: unsigned, and the flags are replaced whole. -/
theorem test_cmp_greater : ends (exec (.cmp 0x00#8 0x01#8) (regs 128#8 127#8)) (fun t => t.fl == 0b00000010#8 && t.x == (regs 128#8 127#8).x) = true := by
  decide
theorem test_cmp_replaces : ends (exec (.cmp 0x00#8 0x01#8) ((regs 7#8 7#8).setFl 0b00000100#8)) (fun t => t.fl == 0b00000001#8) = true := by
  decide

/-- Section 2.5: operand A is reported when both are out of range, and before a division by zero. -/
theorem test_index_priority :
    faults State.reset (exec (.add 0x09#8 0x0A#8) State.reset) (.regOutOfBounds 9#8) = true ∧
    faults State.reset (exec (.div 0x08#8 0x00#8) State.reset) (.regOutOfBounds 8#8) = true := by decide

/-! ### Engine, immediate load and output, 95_test_vectors sections 2.6 and 2.7 -/

/-- V-ENG-1. -/
theorem test_nop : ends (exec .nop (State.reset.setPc 9#9)) (fun t => t == State.reset.setPc 10#9) = true := by decide
/-- V-ENG-2. -/
theorem test_hlt : ends (exec .hlt (State.reset.setPc 5#9)) (fun t => t == { State.reset.setPc 5#9 with run := .halted } && t.exitStatus == some 0) = true := by
  decide
/-- V-ENG-4, V-ENG-5, V-ENG-6, V-ENG-7: a step of a fetched byte with no arm. -/
theorem test_ld : ends (step (launch 256 [0x83#8, 0x00#8, 0x01#8])) (fun t => t.pc == 1#9 && t.out == [.diag 0x83#8] && t.run == .running) = true := by
  decide
theorem test_int : ends (step (launch 256 [0x52#8, 0x01#8])) (fun t => t.pc == 1#9 && t.out == [.diag 0x52#8]) = true := by decide
theorem test_iret : ends (step (launch 256 [0x13#8, 0x01#8])) (fun t => t.pc == 1#9 && t.out == [.diag 0x13#8] && t.sp == 0xF4#8) = true := by
  decide
theorem test_unassigned : ends (step (launch 256 [0xC0#8, 0x01#8])) (fun t => t.pc == 1#9 && t.out == [.diag 0xC0#8]) = true := by
  decide
/-- V-LDI-7: the literal is data. V-LDI-6: only the index is checked. -/
theorem test_ldi : ends (step (launch 256 [0x82#8, 0x00#8, 0x82#8, 0x01#8])) (fun t => t.reg 0 == 0x82#8 && t.pc == 3#9) = true := by
  decide
theorem test_ldi_index : faults State.reset (exec (.ldi 0x08#8 0x01#8) State.reset) (.regOutOfBounds 8#8) = true := by decide
/-- V-PRN-1 and V-PRN-2. -/
theorem test_prn : ends (exec (.prn 0x07#8) State.reset) (fun t => t.out == [.printNum 244#8] && t.pc == 2#9 && t.outputText == [0x32#8, 0x34#8, 0x34#8, 0x0A#8]) = true := by
  decide
theorem test_prn_index : faults State.reset (exec (.prn 0x08#8) State.reset) (.regOutOfBounds 8#8) = true := by decide
/-- V-PRA-1 (the letter H), V-PRA-3 (the event of a value with no ASCII character). -/
theorem test_pra : ends (exec (.pra 0x00#8) (regs 0x48#8 0#8)) (fun t => t.out == [.printChar 0x48#8] && t.outputText == [0x48#8, 0x0A#8]) = true := by
  decide
theorem test_pra_high : ends (exec (.pra 0x00#8) (regs 0xC8#8 0#8)) (fun t => t.out == [.printChar 0xC8#8] && t.run == .running) = true := by
  decide

/-! ### Stack, 95_test_vectors sections 2.8 and 2.11 -/

/-- V-STK-3: `PUSH R7` stores the old stack pointer. -/
theorem test_push_sp : ends (exec (.push 0x07#8) State.reset) (fun t => decide (memRead t.mem 0xF3 = .ok 0xF4#8) && t.sp == 0xF3#8 && t.pc == 2#9) = true := by
  decide
/-- V-STK-5: the stack pointer wraps from 0 to 255. -/
theorem test_push_wraps : ends (exec (.push 0x00#8) ((regs 0xAA#8 0#8).setSp 0x00#8)) (fun t => decide (memRead t.mem 0xFF = .ok 0xAA#8) && t.sp == 0xFF#8) = true := by
  decide
/-- V-STK-4: `POP R7` writes the register after the increment. -/
theorem test_pop_sp : ends (exec (.pop 0x07#8) ((State.reset.setMem (placeBytes State.reset.mem 0xF3 [0x55#8])).setSp 0xF3#8)) (fun t => t.sp == 0x55#8 && decide (memRead t.mem 0xF3 = .ok 0x55#8)) = true := by
  decide
/-- V-STK-8: the index fault of POP leaves the stack pointer. -/
theorem test_pop_index : faults State.reset (exec (.pop 0x08#8) State.reset) (.regOutOfBounds 8#8) = true := by decide
/-- Section 2.11: with 16 cells the reset stack pointer points outside memory. -/
theorem test_small_memory :
    faults (launch 16 []) (exec (.push 0x00#8) (launch 16 [])) (.memOutOfBounds 0xF3) = true ∧
    faults (launch 16 []) (exec (.pop 0x00#8) (launch 16 [])) (.memOutOfBounds 0xF4) = true ∧
    faults (launch 16 []) (exec .ret (launch 16 [])) (.memOutOfBounds 0xF4) = true ∧
    faults (launch 16 []) (exec (.call 0x00#8) (launch 16 [])) (.memOutOfBounds 0xF3) = true := by decide

/-! ### Control transfer, 95_test_vectors sections 2.9 and 2.10 -/

/-- The `pc` a jump through register 2, holding 0x10, ends at from the address 0x0C with the given flags. -/
def jumpEnds (i : Instr) (fl : Byte) (pc : PcWord) : Bool :=
  ends (exec i (((State.reset.setReg 2 0x10#8).setPc 0x0C#9).setFl fl)) fun t => t.pc == pc && t.fl == fl

/-- The table of section 2.9, a column for each jump: equal, greater, less. -/
theorem test_jmp : (jumpEnds (.jmp 0x02#8) 1#8 0x10#9 && jumpEnds (.jmp 0x02#8) 2#8 0x10#9 && jumpEnds (.jmp 0x02#8) 4#8 0x10#9) = true := by
  decide
theorem test_jeq : (jumpEnds (.jeq 0x02#8) 1#8 0x10#9 && jumpEnds (.jeq 0x02#8) 2#8 0x0E#9 && jumpEnds (.jeq 0x02#8) 4#8 0x0E#9) = true := by
  decide
theorem test_jne : (jumpEnds (.jne 0x02#8) 1#8 0x0E#9 && jumpEnds (.jne 0x02#8) 2#8 0x10#9 && jumpEnds (.jne 0x02#8) 4#8 0x10#9) = true := by
  decide
theorem test_jgt : (jumpEnds (.jgt 0x02#8) 1#8 0x0E#9 && jumpEnds (.jgt 0x02#8) 2#8 0x10#9 && jumpEnds (.jgt 0x02#8) 4#8 0x0E#9) = true := by
  decide
theorem test_jlt : (jumpEnds (.jlt 0x02#8) 1#8 0x0E#9 && jumpEnds (.jlt 0x02#8) 2#8 0x0E#9 && jumpEnds (.jlt 0x02#8) 4#8 0x10#9) = true := by
  decide
theorem test_jle : (jumpEnds (.jle 0x02#8) 1#8 0x10#9 && jumpEnds (.jle 0x02#8) 2#8 0x0E#9 && jumpEnds (.jle 0x02#8) 4#8 0x10#9) = true := by
  decide
theorem test_jge : (jumpEnds (.jge 0x02#8) 1#8 0x10#9 && jumpEnds (.jge 0x02#8) 2#8 0x10#9 && jumpEnds (.jge 0x02#8) 4#8 0x0E#9) = true := by
  decide
/-- V-J-1, V-J-2, V-J-3: the register is checked only by a taken jump. -/
theorem test_jump_index :
    ends (exec (.jeq 0x09#8) State.reset) (fun t => t == State.reset.setPc 2#9) = true ∧
    faults State.reset (exec (.jne 0x09#8) State.reset) (.regOutOfBounds 9#8) = true ∧
    faults State.reset (exec (.jmp 0x08#8) State.reset) (.regOutOfBounds 8#8) = true := by decide
/-- V-CALL-1. -/
theorem test_call : ends (exec (.call 0x01#8) ((regs 0#8 0x10#8).setPc 6#9)) (fun t => decide (memRead t.mem 0xF3 = .ok 0x08#8) && t.sp == 0xF3#8 && t.pc == 0x10#9) = true := by
  decide
/-- V-CALL-2 and V-CALL-3: the target is read after the push; the return address 256 is stored as 0. -/
theorem test_call_corners :
    ends (exec (.call 0x07#8) State.reset) (fun t => t.pc == 0xF3#9 && decide (memRead t.mem 0xF3 = .ok 0x02#8)) = true ∧
    ends (exec (.call 0x01#8) ((regs 0#8 9#8).setPc 0xFE#9)) (fun t => t.pc == 9#9 && decide (memRead t.mem 0xF3 = .ok 0x00#8)) = true := by
  decide
/-- V-RET-1. -/
theorem test_ret : ends (exec .ret ((State.reset.setMem (placeBytes State.reset.mem 0xF3 [0x08#8])).setSp 0xF3#8)) (fun t => t.pc == 8#9 && t.sp == 0xF4#8 && decide (memRead t.mem 0xF3 = .ok 0x08#8)) = true := by
  decide

/-! ### Steps -/

/-- V-ENG-9 at its last step: HLT in the last cell runs. -/
theorem test_step_hlt_lastCell :
    ends (step ((launch 256 []).setPc 0xFF#9 |>.withFetchWord 8 0x01)) (fun t => t.run == .halted && t.pc == 0xFF#9) = true := by
  decide
/-- V-ENG-10 at its last step, and section 4, X4, X5, X6 at theirs. -/
theorem test_step_fetchFaults :
    faults (State.reset.setPc 256#9) (step (State.reset.setPc 256#9)) (.memOutOfBounds 256) = true ∧
    ends (step ((State.reset.setPc 0xFF#9).withFetchWord 8 0x47)) (fun t => t.fault == some (.memOutOfBounds 256) && t.pc == 0xFF#9) = true ∧
    ends (step ((State.reset.setPc 0xFE#9).withFetchWord 16 0x0082)) (fun t => t.fault == some (.memOutOfBounds 256) && t.pc == 0xFE#9) = true ∧
    ends (step ((State.reset.setPc 0xFF#9).withFetchWord 8 0x82)) (fun t => t.fault == some (.memOutOfBounds 256) && t.pc == 0xFF#9) = true := by
  decide
/-- P1, its first step, with the bytes placed by `withFetchWord`. -/
theorem test_withFetchWord : ends (step (State.reset.withFetchWord 24 0x080082)) (fun t => t.reg 0 == 8#8 && t.pc == 3#9) = true := by
  decide
/-- Section 2.11: a launch longer than the capacity, or outside 1 to 256, is refused (D1). -/
theorem test_boot_refuses :
    (boot 2 [0x00#8, 0x00#8, 0x01#8]).isNone = true ∧ (boot 0 []).isNone = true ∧ (boot 257 []).isNone = true ∧
    (boot 1 [0x01#8]).isSome = true := by decide

/-! ### Witnesses

For every obligation with hypotheses, a concrete state and operands that meet them, clause by clause, at the ends of their
ranges. Where the hypothesis is that a step answers a next state, `ends` shows that it does and what that state holds. -/

/-- The core launched with the image in the default memory, moved to the address where the image of a clause stands. -/
def at_ (pc : PcWord) (nbits w : Nat) : State := (State.reset.setPc pc).withFetchWord nbits w

theorem memory_empty_read (capacity addr : Nat) (h : addr < capacity) :
    memRead (Memory.empty capacity) addr = .ok 0x00#8 := by
  simp [memRead, Memory.empty, lookupCell, h, Config.unlistedByte]

/-- Both sides of the equivalence hold of one string, neither of another. -/
theorem witness_DecodeGivesBackEncoded :
    decode [0xA0#8, 0x05#8, 0xFF#8, 0x01#8] = .instr (.add 0x05#8 0xFF#8) [0x01#8] ∧
    [0xA0#8, 0x05#8, 0xFF#8, 0x01#8] = encode (.add 0x05#8 0xFF#8) ++ [0x01#8] ∧
    decode [0xA1#8, 0x05#8, 0xFF#8] ≠ .instr (.add 0x05#8 0xFF#8) [] ∧
    [0xA1#8, 0x05#8, 0xFF#8] ≠ encode (.add 0x05#8 0xFF#8) := by decide

/-- 95_test_vectors P1: the premise with equal bytes; and two programs whose bytes differ. -/
theorem witness_ProgramBytesDetermineInstructions :
    [Instr.ldi 0x00#8 0x08#8, .prn 0x00#8, .hlt].flatMap encode = [0x82#8, 0x00#8, 0x08#8, 0x47#8, 0x00#8, 0x01#8] ∧
    [Instr.int, .hlt].flatMap encode ≠ [Instr.int].flatMap encode := by decide

/-- Both sides of the equivalence hold of 0xC0, neither of 0x01. -/
theorem witness_UnassignedBytesRejected :
    decode [0xC0#8] = .reject (.unassigned 0xC0#8) ∧ (∀ o : Opcode, o.code ≠ 0xC0#8) ∧
    decode [0x01#8] ≠ .reject (.unassigned 0x01#8) ∧ Opcode.code .hlt = 0x01#8 :=
  ⟨by decide, fun o => by cases o <;> decide, by decide, rfl⟩

/-- A byte of each of the three lengths. -/
theorem witness_UnitLengthByOpcode :
    unitLength 0x45#8 = 2 ∧ unitLength 0x69#8 = 2 ∧ unitLength 0x82#8 = 3 ∧ unitLength 0xAD#8 = 3 ∧
    unitLength 0x11#8 = 1 ∧ unitLength 0x83#8 = 1 ∧ unitLength 0xFF#8 = 1 := by decide

theorem witness_RegisterAccessChecksIndex :
    8 ≤ (0x08#8 : Byte).toNat ∧ 8 ≤ (0xFF#8 : Byte).toNat ∧ regRead State.reset 0x08#8 = .error (.regOutOfBounds 0x08#8) ∧
    regRead State.reset (regByte 7) = .ok 0xF4#8 := by decide

/-- Addresses 255 and 256 of the default memory, 15 and 16 of a memory of 16 cells. -/
theorem witness_MemoryReadAfterWrite :
    State.reset.mem.capacity ≤ 256 ∧ (launch 16 []).mem.capacity ≤ 16 ∧ State.reset.mem.wf = true ∧
    255 < State.reset.mem.capacity ∧ (launch 16 []).mem.wf = true ∧ 15 < (launch 16 []).mem.capacity := by decide

/-- The premises of `BinaryIndexFaults` and `UnaryIndexFault`, first clause and second. -/
theorem witness_indexFaults :
    8 ≤ (0x08#8 : Byte).toNat ∧ 8 ≤ (0xFF#8 : Byte).toNat ∧ (0x07#8 : Byte).toNat < 8 ∧ (0x00#8 : Byte).toNat < 8 := by decide

theorem witness_AddSubMulResults :
    faults State.reset (exec (.add 0x08#8 0x00#8) State.reset) (.regOutOfBounds 8#8) = true ∧
    faults State.reset (exec (.sub 0x07#8 0x08#8) State.reset) (.regOutOfBounds 8#8) = true ∧
    faults State.reset (exec (.mul 0x07#8 0xFF#8) State.reset) (.regOutOfBounds 255#8) = true := by decide

/-- A divisor of 1, a divisor of 0, and the index clauses. -/
theorem witness_DivQuotient :
    ((regs 255#8 1#8).reg 1).toNat ≠ 0 ∧ ((regs 200#8 0#8).reg 1).toNat = 0 ∧
    faults State.reset (exec (.div 0x07#8 0x08#8) State.reset) (.regOutOfBounds 8#8) = true := by decide

theorem witness_ModRemainder :
    ((regs 255#8 1#8).reg 1).toNat ≠ 0 ∧ ((regs 200#8 0#8).reg 1).toNat = 0 ∧
    faults State.reset (exec (.mod 0x07#8 0x08#8) State.reset) (.regOutOfBounds 8#8) = true := by decide

/-- 30 by 7, and a register by itself. -/
theorem witness_DivModReconstruct : ((regs 30#8 7#8).reg 1).toNat ≠ 0 ∧ ((regs 1#8 0#8).reg 0).toNat ≠ 0 := by decide

theorem witness_IncDecResults :
    faults State.reset (exec (.inc 0x08#8) State.reset) (.regOutOfBounds 8#8) = true ∧
    faults State.reset (exec (.dec 0xFF#8) State.reset) (.regOutOfBounds 255#8) = true := by decide

theorem witness_NotInverts : faults State.reset (exec (.not 0x08#8) State.reset) (.regOutOfBounds 8#8) = true := by decide

theorem witness_AndOrXorBitwise :
    faults State.reset (exec (.and 0x08#8 0x00#8) State.reset) (.regOutOfBounds 8#8) = true ∧
    faults State.reset (exec (.or 0x07#8 0x08#8) State.reset) (.regOutOfBounds 8#8) = true ∧
    faults State.reset (exec (.xor 0x00#8 0xFF#8) State.reset) (.regOutOfBounds 255#8) = true := by decide

/-- Counts of 7, 8 and 255. -/
theorem witness_ShiftResults :
    ¬ 8 ≤ (7#8 : Byte).toNat ∧ 8 ≤ (8#8 : Byte).toNat ∧ 8 ≤ (255#8 : Byte).toNat ∧
    faults State.reset (exec (.shl 0x08#8 0x00#8) State.reset) (.regOutOfBounds 8#8) = true ∧
    faults State.reset (exec (.shr 0x07#8 0x08#8) State.reset) (.regOutOfBounds 8#8) = true := by decide

/-- Equal, greater, less, and an index fault that keeps `FL`. -/
theorem witness_CmpWritesFlags :
    ends (exec (.cmp 0x00#8 0x01#8) (regs 7#8 7#8)) (fun t => t.fl == 1#8) = true ∧
    ends (exec (.cmp 0x00#8 0x01#8) (regs 255#8 0#8)) (fun t => t.fl == 2#8) = true ∧
    ends (exec (.cmp 0x00#8 0x01#8) (regs 0#8 255#8)) (fun t => t.fl == 4#8) = true ∧
    ends (exec (.cmp 0x00#8 0x08#8) ((regs 0#8 0#8).setFl 2#8)) (fun t => t.fl == 2#8 && t.run == .faulted) = true ∧
    (regs 7#8 7#8).fl = 0#8 := by
  decide

theorem witness_StCopiesRegister :
    faults State.reset (exec (.st 0x08#8 0x00#8) State.reset) (.regOutOfBounds 8#8) = true ∧
    faults State.reset (exec (.st 0x07#8 0x08#8) State.reset) (.regOutOfBounds 8#8) = true := by decide

/-- A select that is not one of the fifteen, and one that is. -/
theorem witness_AluSelectsSupported :
    alu 0xA5#8 1#8 2#8 = .error (.unsupportedAluOp 0xA5#8) ∧ alu 0xA0#8 1#8 2#8 = .ok (.value 3#8) ∧
    alu 0xA3#8 1#8 0#8 = .error (.divideByZero 0xA3#8) := by decide

theorem witness_LdiLoadsLiteral :
    ends (exec (.ldi 0x07#8 0xFF#8) State.reset) (fun t => t.sp == 0xFF#8) = true ∧
    faults State.reset (exec (.ldi 0x08#8 0x00#8) State.reset) (.regOutOfBounds 8#8) = true := by decide

theorem witness_PrintsEmitRegisterValue :
    faults State.reset (exec (.prn 0x08#8) State.reset) (.regOutOfBounds 8#8) = true ∧
    faults State.reset (exec (.pra 0xFF#8) State.reset) (.regOutOfBounds 255#8) = true := by decide

/-- 127 is the last value with an ASCII character; 0 is the one value whose text begins with the digit 0. -/
theorem witness_PrintedTextIsDecimal :
    (127#8 : Byte).toNat < 128 ∧ ¬ (128#8 : Byte).toNat < 128 ∧ decimalText 0#8 = [0x30#8] ∧
    decimalText 255#8 = [0x32#8, 0x35#8, 0x35#8] ∧ decimalText 100#8 = [0x31#8, 0x30#8, 0x30#8] := by decide

/-- `SP` of 0 (a push at 255), of 1 (at 0) and of 255 (a pop that wraps); both kinds of fault with 16 cells. -/
theorem witness_StackOperationsAddress :
    ((State.reset.setSp 0x00#8).sp.toNat + 255) % 256 < 256 ∧
    ends (exec (.push 0x00#8) (State.reset.setSp 0x01#8)) (fun t => t.sp == 0x00#8) = true ∧
    ends (exec (.pop 0x00#8) (State.reset.setSp 0xFF#8)) (fun t => t.sp == 0x00#8) = true ∧
    (launch 16 []).mem.wf = true ∧ ((((launch 16 []).setSp 0x10#8).sp.toNat + 255) % 256 < 16) ∧
    (launch 16 []).mem.capacity ≤ ((launch 16 []).sp.toNat + 255) % 256 ∧
    (launch 16 []).mem.capacity ≤ ((launch 16 []).setSp 0x10#8).sp.toNat := by decide

theorem witness_PushStoresRegister :
    State.reset.mem.wf = true ∧ pushAddr State.reset < State.reset.mem.capacity ∧
    pushAddr (State.reset.setSp 0x00#8) < State.reset.mem.capacity ∧ pushAddr (State.reset.setSp 0x00#8) = 255 := by decide

theorem witness_PopLoadsRegister :
    State.reset.sp.toNat < State.reset.mem.capacity ∧ (State.reset.setSp 0xFF#8).sp.toNat < State.reset.mem.capacity := by
  decide

/-- One state for each of the six clauses. -/
theorem witness_StackFaultPriority :
    faults (launch 16 []) (exec (.push 0x08#8) (launch 16 [])) (.regOutOfBounds 8#8) = true ∧
    faults (launch 16 []) (exec (.push (regByte 7)) (launch 16 [])) (.memOutOfBounds (pushAddr (launch 16 []))) = true ∧
    faults (launch 16 []) (exec (.pop 0x08#8) (launch 16 [])) (.memOutOfBounds 0xF4) = true ∧
    faults State.reset (exec (.pop 0xFF#8) State.reset) (.regOutOfBounds 255#8) = true ∧
    faults (launch 16 []) (exec (.call 0x08#8) (launch 16 [])) (.memOutOfBounds 0xF3) = true ∧
    faults State.reset (exec (.call 0x08#8) State.reset) (.regOutOfBounds 8#8) = true := by decide

theorem witness_PushPopRoundTrip :
    State.reset.mem.wf = true ∧ pushAddr State.reset < State.reset.mem.capacity ∧ (0 : Fin 8) ≠ 7 ∧ (6 : Fin 8) ≠ 7 := by decide

/-- Each condition holds of a value of `FL`, fails of another, and meets an index of 8. -/
theorem witness_JumpsFollowCondition :
    (0b001#8 : Byte).getLsbD 0 = true ∧ (0b100#8 : Byte).getLsbD 0 = false ∧ (0b010#8 : Byte).getLsbD 1 = true ∧
    (0b100#8 : Byte).getLsbD 2 = true ∧ (0b000#8 : Byte).getLsbD 1 = false ∧ (0b000#8 : Byte).getLsbD 2 = false ∧
    8 ≤ (0x08#8 : Byte).toNat := by decide

theorem witness_CallPushesReturnAddress :
    State.reset.mem.wf = true ∧ pushAddr State.reset < State.reset.mem.capacity ∧
    pushAddr (State.reset.setSp 0x00#8) < State.reset.mem.capacity := by decide

theorem witness_RetPopsIntoPc :
    (State.reset.setSp 0xFF#8).sp.toNat < State.reset.mem.capacity ∧ (launch 16 []).mem.capacity ≤ (launch 16 []).sp.toNat ∧
    (launch 16 []).mem.capacity ≤ ((launch 16 []).setSp 0x10#8).sp.toNat := by decide

/-- A CALL at 253, its return address the last cell, and the state it leaves as the later state. -/
theorem witness_CallThenRetResumes :
    (at_ 253#9 16 0x0150).mem.wf = true ∧ pushAddr (at_ 253#9 16 0x0150) < 256 ∧ (at_ 253#9 16 0x0150).pc.toNat ≤ 253 ∧
    (1 : Fin 8) ≠ 7 ∧
    ends (exec (.call (regByte 1)) (at_ 253#9 16 0x0150)) (fun t => ends (exec .ret t) fun u => u.pc == 255#9) = true := by
  decide

/-- The list names the three instructions. -/
theorem witness_ReservedOpcodesDiagnose :
    (Instr.iret, (0x13#8 : Byte)) ∈ [(Instr.iret, 0x13#8), (Instr.int, 0x52#8), (Instr.ld, 0x83#8)] ∧
    (Instr.int, (0x52#8 : Byte)) ∈ [(Instr.iret, 0x13#8), (Instr.int, 0x52#8), (Instr.ld, 0x83#8)] ∧
    (Instr.ld, (0x83#8 : Byte)) ∈ [(Instr.iret, 0x13#8), (Instr.int, 0x52#8), (Instr.ld, 0x83#8)] := by decide

/-- An unassigned byte in the last cell. -/
theorem witness_UnassignedByteDiagnosed :
    (at_ 255#9 8 0xC0).run = .running ∧ OpcodeAtPc (at_ 255#9 8 0xC0) 0xC0#8 ∧ ∀ o : Opcode, o.code ≠ 0xC0#8 :=
  ⟨rfl, by unfold OpcodeAtPc; decide, fun o => by cases o <;> decide⟩

/-- HLT in the last cell, whose next byte is not memory, and an LDI that ends there. -/
theorem witness_StepRunsDecodedInstruction :
    (at_ 255#9 8 0x01).run = .running ∧ BytesAtPc (at_ 255#9 8 0x01) (encode .hlt) ∧
    BytesAtPc (at_ 253#9 24 0x080082) (encode (.ldi 0x00#8 0x08#8)) := by
  refine ⟨rfl, fun k h => ?_, fun k h => ?_⟩
  · have : k = 0 := by simp [encode, Instr.operandBytes] at h; omega
    subst this; rfl
  · have : k = 0 ∨ k = 1 ∨ k = 2 := by simp [encode, Instr.operandBytes] at h; omega
    rcases this with rfl | rfl | rfl <;> rfl

/-- `pc` of 256 and 255 in the default memory, of 16 in one of 16 cells. -/
theorem witness_OpcodeFetchFault :
    (State.reset.setPc 256#9).mem.capacity ≤ (State.reset.setPc 256#9).pc.toNat ∧
    (State.reset.setPc 256#9).run = .running ∧ (State.reset.setPc 256#9).pc.toNat ≤ 256 ∧
    (State.reset.setPc 255#9).pc.toNat ≤ 256 ∧
    ((launch 16 []).setPc 16#9).mem.capacity ≤ ((launch 16 []).setPc 16#9).pc.toNat := by decide

/-- Operand A at 256 for a unit of 2 and of 3 bytes; operand B at 256. -/
theorem witness_OperandFetchFault :
    OpcodeAtPc (at_ 255#9 8 0x47) 0x47#8 ∧ 2 ≤ unitLength 0x47#8 ∧ (at_ 255#9 8 0x47).mem.capacity ≤ 255 + 1 ∧
    OpcodeAtPc (at_ 255#9 8 0x82) 0x82#8 ∧ 2 ≤ unitLength 0x82#8 ∧
    OpcodeAtPc (at_ 254#9 16 0x0082) 0x82#8 ∧ unitLength 0x82#8 = 3 ∧ 254 + 1 < (at_ 254#9 16 0x0082).mem.capacity ∧
    (at_ 254#9 16 0x0082).mem.capacity ≤ 254 + 2 := by
  unfold OpcodeAtPc; decide

theorem witness_StoppedCoreTakesNoStep : State.reset.halt.run = .halted ∧ (raise (.memOutOfBounds 256) State.reset).run = .faulted :=
  ⟨rfl, rfl⟩

/-- Steps that end FAULTED, and instructions that do. -/
theorem witness_FaultingStepIsVoid :
    ends (step (State.reset.setPc 256#9)) (fun t => t.run == .faulted) = true ∧ State.reset.run = .running ∧
    ends (exec (.div 0x00#8 0x01#8) State.reset) (fun t => t.run == .faulted) = true := by decide

/-- A step for each cause and each way to it: fetch, operand A, operand B, push, pop, index A, index B, division. -/
theorem witness_FaultCausesByStep :
    ends (step (State.reset.setPc 256#9)) (fun t => t.fault == some (.memOutOfBounds 256)) = true ∧
    ends (step (at_ 255#9 8 0x47)) (fun t => t.fault == some (.memOutOfBounds 256)) = true ∧
    ends (step (at_ 254#9 8 0x82)) (fun t => t.fault == some (.memOutOfBounds 256)) = true ∧
    ends (step (launch 16 [0x50#8, 0x00#8])) (fun t => t.fault == some (.memOutOfBounds 0xF3)) = true ∧
    ends (step (launch 16 [0x11#8])) (fun t => t.fault == some (.memOutOfBounds 0xF4)) = true ∧
    ends (step (at_ 0#9 16 0x0847)) (fun t => t.fault == some (.regOutOfBounds 8#8)) = true ∧
    ends (step (at_ 0#9 24 0xFF00A0)) (fun t => t.fault == some (.regOutOfBounds 255#8)) = true ∧
    ends (step (at_ 0#9 24 0x0100A3)) (fun t => t.fault == some (.divideByZero 0xA3#8)) = true := by decide

theorem reset_inv : State.reset.Inv :=
  ⟨by decide, by decide, .inl rfl, by decide, fun c h => by simp [State.reset] at h⟩

theorem inv_setPc (pc : PcWord) (h : pc.toNat ≤ 256) : (State.reset.setPc pc).Inv :=
  ⟨reset_inv.memory, h, .inl rfl, by simp [State.setPc, State.reset], fun c h => by simp [State.setPc, State.reset] at h⟩

/-- The step at `pc = 256`. -/
theorem witness_DefaultCapacityFaultAddress :
    (State.reset.setPc 256#9).Inv ∧ (State.reset.setPc 256#9).mem.capacity = 256 ∧
    ends (step (State.reset.setPc 256#9)) (fun t => t.fault == some (.memOutOfBounds 256)) = true :=
  ⟨inv_setPc 256#9 (by decide), rfl, by decide⟩

/-- A well-formed instruction that goes on and one that faults, by another cause. -/
theorem witness_WellFormedRaisesNoIndexFault :
    Instr.wellFormed (.div 0x07#8 0x00#8) = true ∧ State.reset.fault = none ∧
    ends (exec (.div 0x07#8 0x00#8) State.reset) (fun t => t.run == .faulted) = true ∧
    ends (exec (.div 0x00#8 0x07#8) State.reset) (fun t => t.run == .running) = true := by decide

theorem witness_ExitStatusFollowsRun :
    State.reset.exitStatus = none ∧ State.reset.halt.exitStatus = some 0 ∧
    (raise (.memOutOfBounds 256) State.reset).exitStatus = some 1 ∧ (raise (.regOutOfBounds 8#8) State.reset).exitStatus = some 2 ∧
    (raise (.divideByZero 0xA3#8) State.reset).exitStatus = some 3 ∧
    (raise (.unsupportedAluOp 0xA5#8) State.reset).exitStatus = some 4 := by decide

/-- Reset of a FAULTED core with a changed register gives the reset state when memory was not written. -/
theorem witness_ResetLeaves :
    (raise (.divideByZero 0xA3#8) (regs 1#8 2#8)).mem = State.reset.mem ∧
    assertReset (raise (.divideByZero 0xA3#8) (regs 1#8 2#8)) = State.reset ∧ (0 : Fin 8) ≠ 7 := by decide

/-- Capacities 1 and 256, an image that fills the memory; and each kind of refusal. -/
theorem witness_BootLoadsImage :
    (boot 1 [0x01#8]).isSome = true ∧ (boot 256 [0x82#8, 0x00#8]).isSome = true ∧ (boot 0 []).isNone = true ∧
    (boot 257 []).isNone = true ∧ (boot 1 [0x00#8, 0x01#8]).isNone = true := by decide

/-- A state that meets the invariant takes a step, one that goes on and one that faults. -/
theorem witness_StepKeepsInvariant :
    State.reset.Inv ∧ ends (step State.reset) (fun t => t.pc == 1#9) = true ∧ (State.reset.setPc 256#9).Inv ∧
    ends (step (State.reset.setPc 256#9)) (fun t => t.run == .faulted) = true :=
  ⟨reset_inv, by decide, inv_setPc 256#9 (by decide), by decide⟩

/-- A step that is no CMP, one that is, and a CMP that faults. -/
theorem witness_OnlyCmpWritesFlags :
    ends (step ((at_ 0#9 24 0x0100A0).setFl 4#8)) (fun t => t.fl == 4#8) = true ∧ OpcodeAtPc (at_ 0#9 24 0x0100A7) 0xA7#8 ∧
    ends (step (at_ 0#9 24 0x0100A7)) (fun t => t.fl == 1#8 && t.run == .running) = true ∧ ¬ OpcodeAtPc (at_ 0#9 24 0x0100A0) 0xA7#8 := by
  unfold OpcodeAtPc; decide

/-- No jump at `pc`: a step that goes on, a CMP that goes on, a CMP that faults, a fetch that faults, a stopped core. -/
theorem witness_FlagsReadOnlyByJumps :
    (∀ ir, OpcodeAtPc (at_ 0#9 24 0x0100A0) ir → ir ∉ [0x55#8, 0x56#8, 0x57#8, 0x58#8, 0x59#8, 0x5A#8]) ∧
    ends (step (at_ 0#9 24 0x0100A0)) (fun t => t.run == .running) = true ∧ ¬ OpcodeAtPc (at_ 0#9 24 0x0100A0) 0xA7#8 ∧
    (∀ ir, OpcodeAtPc (at_ 0#9 24 0x0800A7) ir → ir ∉ [0x55#8, 0x56#8, 0x57#8, 0x58#8, 0x59#8, 0x5A#8]) ∧
    OpcodeAtPc (at_ 0#9 24 0x0100A7) 0xA7#8 ∧ ends (step (at_ 0#9 24 0x0100A7)) (fun t => t.run == .running) = true ∧
    OpcodeAtPc (at_ 0#9 24 0x0800A7) 0xA7#8 ∧ ends (step (at_ 0#9 24 0x0800A7)) (fun t => t.run == .faulted) = true ∧
    (∀ ir, ¬ OpcodeAtPc (State.reset.setPc 256#9) ir) ∧
    ends (step (State.reset.setPc 256#9)) (fun t => t.run == .faulted) = true ∧
    step State.reset.halt = .fault .coreHalted := by
  have ha : OpcodeAtPc (at_ 0#9 24 0x0100A0) 0xA0#8 := rfl
  have hc : OpcodeAtPc (at_ 0#9 24 0x0800A7) 0xA7#8 := rfl
  refine ⟨fun ir h => ?_, by decide, fun h => ?_, fun ir h => ?_, rfl, by decide, rfl, by decide, fun ir h => ?_, by decide, rfl⟩
  · rw [← Except.ok.inj (ha.symm.trans h)]; decide
  · exact absurd (Except.ok.inj (ha.symm.trans h)) (by decide)
  · rw [← Except.ok.inj (hc.symm.trans h)]; decide
  · cases h

/-- A step that stores, one that does not. -/
theorem witness_OnlyPushAndCallStore :
    ends (step (at_ 0#9 16 0x0745)) (fun t => decide (memRead t.mem 0xF3 = .ok 0xF4#8)) = true ∧
    ¬ OpcodeAtPc (at_ 0#9 16 0x0747) 0x45#8 ∧ ¬ OpcodeAtPc (at_ 0#9 16 0x0747) 0x50#8 ∧
    ends (step (at_ 0#9 16 0x0747)) (fun t => t.run == .running) = true := by
  unfold OpcodeAtPc; decide

/-- A step that changes the stack pointer as a PUSH, and one that names register 7; a NOP before a byte 7 changes nothing. -/
theorem witness_SpChangesAreNamed :
    ends (step (at_ 0#9 16 0x0045)) (fun t => t.sp == 0xF3#8) = true ∧
    ends (step (at_ 0#9 16 0x0765)) (fun t => t.sp == 0xF5#8) = true ∧ WritesOperandA (at_ 0#9 16 0x0765) 7 ∧
    ¬ WritesOperandA (at_ 0#9 16 0x0700) 7 := by
  refine ⟨by decide, by decide, ⟨0x65#8, rfl, by decide, rfl, by decide⟩, fun ⟨ir, h, hm, _⟩ => ?_⟩
  have : ir = 0x00#8 := Except.ok.inj (h.symm.trans (rfl : OpcodeAtPc (at_ 0#9 16 0x0700) 0x00#8))
  rw [this] at hm
  exact absurd hm (by decide)

/-- A step that changes register 3, which its operand A names. -/
theorem witness_OnlyOperandARegisterWritten :
    ends (step (at_ 0#9 16 0x0365)) (fun t => t.reg 3 == 1#8) = true ∧ State.reset.reg 3 = 0#8 ∧ (3 : Fin 8) ≠ 7 ∧
    WritesOperandA (at_ 0#9 16 0x0365) 3 :=
  ⟨by decide, by decide, by decide, 0x65#8, rfl, by decide, rfl, by decide⟩

/-- A step that goes on to the end of memory, a transfer, a halt and a fault. -/
theorem witness_PcFollowsUnitLength :
    (State.reset.setPc 255#9).Inv ∧ ends (step (State.reset.setPc 255#9)) (fun t => t.pc == 256#9) = true ∧
    ends (step (at_ 0#9 16 0x0754)) (fun t => t.pc == 0xF4#9) = true ∧
    ends (step (at_ 0#9 8 0x01)) (fun t => t.run == .halted) = true ∧
    ends (step (at_ 0#9 16 0x0854)) (fun t => t.run == .faulted) = true :=
  ⟨inv_setPc 255#9 (by decide), by decide, by decide, by decide, by decide⟩

/-- A step that emits and one that does not. -/
theorem witness_StepEmitsAtMostOneEvent :
    ends (step (at_ 0#9 16 0x0747)) (fun t => t.out == [.printNum 0xF4#8]) = true ∧
    ends (step State.reset) (fun t => t.out == []) = true := by decide

/-- A step that answers a next state, and one that stops. -/
theorem witness_OutputNeverRead :
    ends (step (at_ 0#9 16 0x0747)) (fun t => t.out == [.printNum 0xF4#8]) = true ∧ step State.reset.halt = .fault .coreHalted :=
  ⟨by decide, rfl⟩

/-- 95_test_vectors P8 at its PUSH: the byte it writes is the opcode the next step fetches. -/
def overwrite : State := ((launch 256 [0x45#8, 0x00#8, 0x48#8]).setReg 0 0x01#8).setSp 0x03#8

theorem witness_StackWriteIsFetched :
    overwrite.run = .running ∧ overwrite.mem.wf = true ∧ BytesAtPc overwrite [0x45#8, regByte 0] ∧
    pushAddr overwrite = overwrite.pc.toNat + 2 ∧ pushAddr overwrite < overwrite.mem.capacity ∧ overwrite.reg 0 = 0x01#8 := by
  refine ⟨rfl, by decide, fun k h => ?_, by decide, by decide, by decide⟩
  have : k = 0 ∨ k = 1 := by simp at h; omega
  rcases this with rfl | rfl <;> rfl

/-- The reset state, and the state at the end of memory, where the core makes no step of NOP at all. -/
theorem witness_ZeroMemoryRunsToTheEnd :
    State.reset.run = .running ∧ State.reset.mem.capacity ≤ 256 ∧ State.reset.pc.toNat ≤ State.reset.mem.capacity ∧
    (∀ addr, State.reset.pc.toNat ≤ addr → addr < State.reset.mem.capacity → memRead State.reset.mem addr = .ok 0x00#8) ∧
    (State.reset.setPc 256#9).pc.toNat ≤ State.reset.mem.capacity :=
  ⟨rfl, by decide, by decide, fun addr _ h => memory_empty_read 256 addr h, by decide⟩

/-- RUNNING states with a next state. -/
theorem witness_RunningStepHasNextState : State.reset.run = .running ∧ ends (step State.reset) (fun t => t.run == .running) = true :=
  ⟨rfl, by decide⟩

end Sys2Proof.Tests
end

section
namespace Sys2Proof.Machine

/-- R24, the frame of a register write: only the written register can differ. -/
theorem regsSameBut_setReg (s : State) (r : Fin 8) (v : Byte) : RegsSameBut s (s.setReg r v) [r] :=
  fun _ h => setReg_reg_ne s v (List.ne_of_not_mem_cons h)

theorem statusSame_setReg (s : State) (r : Fin 8) (v : Byte) : StatusSame s (s.setReg r v) :=
  ⟨setReg_run s r v, setReg_fault s r v, setReg_out s r v⟩

/-- Settles O6: an index of 8 or more is refused whole; any other is a register's byte, and there the write is `setReg`. -/
theorem registerAccessChecksIndex : Obligations.RegisterAccessChecksIndex := by
  refine ⟨fun s i v h => ⟨regRead_ge s h, regWrite_ge s v h⟩, fun s r v => ⟨regRead_regByte s r, ?_⟩⟩
  exact ⟨s.setReg r v, regWrite_regByte s r v, setReg_reg_self s r v, regsSameBut_setReg s r v,
    setReg_pc s r v, setReg_fl s r v, setReg_mem s r v, statusSame_setReg s r v⟩

end Sys2Proof.Machine
end

section
/-! SUPPORT. The state after an ALU instruction, against the frames the claims are stated in. -/

namespace Sys2Proof.Machine

@[simp] theorem advance_reg (s : State) (n : Nat) (r : Fin 8) : (s.advance n).reg r = s.reg r := rfl

/-- A register write and the advance past `n` operand bytes. -/
theorem registerForm_setReg_advance (s : State) (r : Fin 8) (v : Byte) (n : Nat) :
    RegisterForm s ((s.setReg r v).advance n) [r] (n + 1) where
  regs := regsSameBut_setReg s r v
  pc := rfl
  mem _ := rfl
  status := statusSame_setReg s r v

/-- A flags write and the advance past `n` operand bytes. -/
theorem registerForm_setFl_advance (s : State) (f : Byte) (n : Nat) :
    RegisterForm s ((s.setFl f).advance n) [] (n + 1) where
  regs _ _ := rfl
  pc := rfl
  mem _ := rfl
  status := ⟨rfl, rfl, rfl⟩

/-- The byte of an exact natural result (R11). -/
theorem wrap8_natCast_toNat (n : Nat) : (wrap8 (n : Int)).toNat = n % 256 := by
  have h := wrap8_toNat n
  omega

theorem compareFlags_of_eq {a b : Byte} (h : a.toNat = b.toNat) : compareFlags a b = 0b00000001#8 := if_pos h

theorem compareFlags_of_lt {a b : Byte} (h : a.toNat < b.toNat) : compareFlags a b = 0b00000100#8 :=
  (if_neg h.ne).trans (if_pos h)

theorem compareFlags_of_gt {a b : Byte} (h : b.toNat < a.toNat) : compareFlags a b = 0b00000010#8 :=
  (if_neg h.ne').trans (if_neg h.not_gt)

end Sys2Proof.Machine
end

section
/-! SUPPORT. The two ALU arms (spec/40_alu.md R126), once for every instruction that is dispatched to them. -/

namespace Sys2Proof.Machine

/-- The instructions `mk` are dispatched to the binary arm with the select `op`. -/
def BinaryArm (mk : Byte → Byte → Instr) (op : Byte) : Prop :=
  ∀ a b s, exec (mk a b) s = settle s (aluBinary op a b s)

/-- The instructions `mk` are dispatched to the unary arm with the select `op`. -/
def UnaryArm (mk : Byte → Instr) (op : Byte) : Prop := ∀ a s, exec (mk a) s = settle s (aluUnary op a s)

theorem binaryArm_add : BinaryArm .add 0xA0#8 := fun _ _ _ => rfl
theorem binaryArm_sub : BinaryArm .sub 0xA1#8 := fun _ _ _ => rfl
theorem binaryArm_mul : BinaryArm .mul 0xA2#8 := fun _ _ _ => rfl
theorem binaryArm_mod : BinaryArm .mod 0xA4#8 := fun _ _ _ => rfl
theorem binaryArm_and : BinaryArm .and 0xA8#8 := fun _ _ _ => rfl
theorem binaryArm_or : BinaryArm .or 0xAA#8 := fun _ _ _ => rfl
theorem binaryArm_xor : BinaryArm .xor 0xAB#8 := fun _ _ _ => rfl
theorem binaryArm_cmp : BinaryArm .cmp 0xA7#8 := fun _ _ _ => rfl
theorem unaryArm_inc : UnaryArm .inc 0x65#8 := fun _ _ => rfl
theorem unaryArm_dec : UnaryArm .dec 0x66#8 := fun _ _ => rfl

/-! ### The binary arm -/

section
variable {mk : Byte → Byte → Instr} {op : Byte} (arm : BinaryArm mk op)
include arm

/-- On two registers for which the ALU has an output. -/
theorem BinaryArm.exec_ok {s : State} {ra rb : Fin 8} {out : AluOut} (h : alu op (s.reg ra) (s.reg rb) = .ok out) :
    exec (mk (regByte ra) (regByte rb)) s = .next ((applyAlu s ra out).advance 2) := by
  rw [arm, aluBinary_regByte, h]
  rfl

/-- On two registers for which the ALU raises a fault. -/
theorem BinaryArm.exec_error {s : State} {ra rb : Fin 8} {c : FaultCause}
    (h : alu op (s.reg ra) (s.reg rb) = .error c) :
    exec (mk (regByte ra) (regByte rb)) s = .next (raise c s) := by
  rw [arm, aluBinary_regByte, h]
  rfl

/-- An ALU operation with the value `f a b` and no flags makes an instruction of the form `BinaryResult`. -/
theorem BinaryArm.result {f : Byte → Byte → Byte} {result : Byte → Byte → Byte → Prop}
    (halu : ∀ a b, alu op a b = .ok (.value (f a b))) (hf : ∀ a b, result a b (f a b)) : BinaryResult mk result := by
  intro s ra rb
  refine ⟨_, arm.exec_ok (halu _ _), ?_, registerForm_setReg_advance s ra _ 2, rfl⟩
  simpa using hf (s.reg ra) (s.reg rb)

/-- Operand A is read before operand B, and both before the ALU (decision D23). -/
theorem BinaryArm.indexFaults : BinaryIndexFaults mk := by
  refine ⟨fun s a b ha => ⟨raise (.regOutOfBounds a) s, ?_, rfl, rfl⟩,
    fun s a b ha hb => ⟨raise (.regOutOfBounds b) s, ?_, rfl, rfl⟩⟩
  · rw [arm, aluBinary_geA op b s ha, settle_error]
  · obtain ⟨r, rfl⟩ := regByte_of_lt ha
    rw [arm, aluBinary_geB op r s hb, settle_error]

end

/-! ### The unary arm -/

section
variable {mk : Byte → Instr} {op : Byte} (arm : UnaryArm mk op)
include arm

/-- An ALU operation with the value `f a` and no flags makes an instruction of the form `UnaryResult`. -/
theorem UnaryArm.result {f : Byte → Byte} {result : Byte → Byte → Prop}
    (halu : ∀ a b, alu op a b = .ok (.value (f a))) (hf : ∀ a, result a (f a)) : UnaryResult mk result := by
  intro s ra
  refine ⟨(s.setReg ra (f (s.reg ra))).advance 1, ?_, ?_, registerForm_setReg_advance s ra _ 1, rfl⟩
  · rw [arm, aluUnary_regByte, halu]
    rfl
  · simpa using hf (s.reg ra)

theorem UnaryArm.indexFault : UnaryIndexFault mk := by
  refine fun s a ha => ⟨raise (.regOutOfBounds a) s, ?_, rfl, rfl⟩
  rw [arm, aluUnary_ge op s ha, settle_error]

end

end Sys2Proof.Machine
end

section
/-! SUPPORT. Which operations keep the flags register (spec/10_state.md R33): all but the ALU's compare. -/

namespace Sys2Proof.Machine

/-- R110: the compare is the one select with `write_flags`. -/
theorem alu_flags_none {op a b : Byte} {out : AluOut} (hop : op ≠ 0xA7#8) (h : alu op a b = .ok out) :
    out.flags = none := by
  have hop' : op.toNat ≠ 0xA7 := fun e => hop (BitVec.eq_of_toNat_eq e)
  unfold alu at h
  split at h
  case h_14 e => exact absurd e hop'
  case h_16 => cases h
  case h_4 | h_5 =>
    split at h
    · cases h
    · cases h
      rfl
  all_goals
    cases h
    rfl

/-- A sequence that completes completed both of its parts. -/
theorem bind_eq_ok {α β : Type} {x : Except FaultCause α} {f : α → Except FaultCause β} {b : β} (h : x >>= f = .ok b) :
    ∃ a, x = .ok a ∧ f a = .ok b := by
  cases x with
  | ok a => exact ⟨a, rfl, h⟩
  | error c => cases h

theorem regWrite_fl {s t : State} {i v : Byte} (h : regWrite s i v = .ok t) : t.fl = s.fl := by
  obtain ⟨r, -, h⟩ := bind_eq_ok h
  cases h
  rfl

theorem writeAluOut_fl {s t : State} {a : Byte} {out : AluOut} (hout : out.flags = none)
    (h : writeAluOut s a out = .ok t) : t.fl = s.fl := by
  obtain ⟨_ | v, flags⟩ := out
  · cases hout
    cases h
    rfl
  · cases hout
    obtain ⟨s1, hw, h⟩ := bind_eq_ok h
    cases h
    exact regWrite_fl hw

theorem aluBinary_fl {op a b : Byte} {s t : State} (hop : op ≠ 0xA7#8) (h : aluBinary op a b s = .ok t) :
    t.fl = s.fl := by
  obtain ⟨va, -, h⟩ := bind_eq_ok h
  obtain ⟨vb, -, h⟩ := bind_eq_ok h
  obtain ⟨out, hout, h⟩ := bind_eq_ok h
  obtain ⟨s1, hw, h⟩ := bind_eq_ok h
  cases h
  exact (writeAluOut_fl (alu_flags_none hop hout) hw :)

theorem aluUnary_fl {op a : Byte} {s t : State} (hop : op ≠ 0xA7#8) (h : aluUnary op a s = .ok t) : t.fl = s.fl := by
  obtain ⟨va, -, h⟩ := bind_eq_ok h
  obtain ⟨out, hout, h⟩ := bind_eq_ok h
  obtain ⟨s1, hw, h⟩ := bind_eq_ok h
  cases h
  exact (writeAluOut_fl (alu_flags_none hop hout) hw :)

theorem loadImmediate_fl {a imm : Byte} {s t : State} (h : loadImmediate a imm s = .ok t) : t.fl = s.fl := by
  obtain ⟨s1, hw, h⟩ := bind_eq_ok h
  cases h
  exact (regWrite_fl hw :)

theorem printRegister_fl {e : Byte → OutputEvent} {a : Byte} {s t : State} (h : printRegister e a s = .ok t) :
    t.fl = s.fl := by
  obtain ⟨v, -, h⟩ := bind_eq_ok h
  cases h
  rfl

theorem push_fl {v : Byte} {s t : State} (h : push v s = .ok t) : t.fl = s.fl := by
  obtain ⟨m, -, h⟩ := bind_eq_ok h
  cases h
  rfl

theorem pop_fl {s : State} {p : Byte × State} (h : pop s = .ok p) : p.2.fl = s.fl := by
  obtain ⟨v, -, h⟩ := bind_eq_ok h
  cases h
  rfl

theorem pushRegister_fl {a : Byte} {s t : State} (h : pushRegister a s = .ok t) : t.fl = s.fl := by
  obtain ⟨v, -, h⟩ := bind_eq_ok h
  obtain ⟨s1, hpush, h⟩ := bind_eq_ok h
  cases h
  exact (push_fl hpush :)

theorem popRegister_fl {a : Byte} {s t : State} (h : popRegister a s = .ok t) : t.fl = s.fl := by
  obtain ⟨p, hpop, h⟩ := bind_eq_ok h
  obtain ⟨s2, hw, h⟩ := bind_eq_ok h
  cases h
  exact (regWrite_fl hw).trans (pop_fl hpop)

theorem callRegister_fl {a : Byte} {s t : State} (h : callRegister a s = .ok t) : t.fl = s.fl := by
  obtain ⟨s1, hpush, h⟩ := bind_eq_ok h
  obtain ⟨v, -, h⟩ := bind_eq_ok h
  cases h
  exact (push_fl hpush :)

theorem returnFromCall_fl {s t : State} (h : returnFromCall s = .ok t) : t.fl = s.fl := by
  obtain ⟨p, hpop, h⟩ := bind_eq_ok h
  cases h
  exact pop_fl hpop

theorem jump_fl {op a : Byte} {s t : State} (h : jump op a s = .ok t) : t.fl = s.fl := by
  unfold jump at h
  split at h
  · obtain ⟨v, -, h⟩ := bind_eq_ok h
    cases h
    rfl
  · cases h
    rfl

/-- R33 for an instruction that completes. -/
theorem pseudocode_fl {i : Instr} {s t : State} (h : pseudocode i s = .ok t) :
    t.fl = s.fl ∨ ∃ a b, i = .cmp a b := by
  cases i with
  | cmp a b => exact .inr ⟨a, b, rfl⟩
  | nop | hlt | iret | int | ld => cases h; exact .inl rfl
  | inc | dec | not => exact .inl (aluUnary_fl (by decide) h)
  | add | sub | mul | div | mod | and | or | xor | shl | shr | st => exact .inl (aluBinary_fl (by decide) h)
  | jmp | jeq | jne | jgt | jlt | jle | jge => exact .inl (jump_fl h)
  | prn | pra => exact .inl (printRegister_fl h)
  | ldi => exact .inl (loadImmediate_fl h)
  | push => exact .inl (pushRegister_fl h)
  | pop => exact .inl (popRegister_fl h)
  | call => exact .inl (callRegister_fl h)
  | ret => exact .inl (returnFromCall_fl h)

/-- R33: a CMP is the only instruction that changes `FL`; a fault keeps it. -/
theorem exec_fl {i : Instr} {s t : State} (h : exec i s = .next t) : t.fl = s.fl ∨ ∃ a b, i = .cmp a b := by
  obtain h | ⟨c, -, rfl⟩ := exec_next h
  · exact pseudocode_fl h
  · exact .inl rfl

/-- A binary instruction with an index of 8 or more is void, so it keeps `FL`, a CMP included. -/
theorem BinaryArm.fl_of_index_ge {mk : Byte → Byte → Instr} {op : Byte} (arm : BinaryArm mk op) {s t : State}
    {a b : Byte} (hab : 8 ≤ a.toNat ∨ 8 ≤ b.toNat) (h : exec (mk a b) s = .next t) : t.fl = s.fl := by
  obtain ⟨ra, rfl⟩ | ha := regByte_or_ge a
  · have hb : 8 ≤ b.toNat := hab.resolve_left (regByte_lt ra).not_ge
    rw [arm, aluBinary_geB op ra s hb] at h
    cases h
    rfl
  · rw [arm, aluBinary_geA op b s ha] at h
    cases h
    rfl

end Sys2Proof.Machine
end

section
/-! SUPPORT. The ALU statements (spec/40_alu.md R111 to R120, R124), assembled from the arms. -/

namespace Sys2Proof.Machine

/-- Settles O8: each is the binary arm with the exact result narrowed by `wrap8`. -/
theorem addSubMulResults : Obligations.AddSubMulResults :=
  ⟨binaryArm_add.result alu_add fun a b => wrap8_natCast_toNat (a.toNat + b.toNat),
    binaryArm_sub.result alu_sub fun a b => wrap8_toNat (a.toNat - b.toNat),
    binaryArm_mul.result alu_mul fun a b => wrap8_natCast_toNat (a.toNat * b.toNat),
    binaryArm_add.indexFaults, binaryArm_sub.indexFaults, binaryArm_mul.indexFaults,
    fun _ _ => rfl, fun _ _ => rfl, fun _ _ => rfl⟩

/-- Settles O10: the remainder is below 256, so `wrap8` keeps it; a zero divisor makes the ALU raise. -/
theorem modRemainder : Obligations.ModRemainder := by
  refine ⟨fun s ra rb hb => ?_, fun s ra rb hb => ?_, binaryArm_mod.indexFaults, fun _ _ => rfl⟩
  · refine ⟨_, binaryArm_mod.exec_ok ((alu_mod _ _).trans (if_neg hb)), ?_, registerForm_setReg_advance s ra _ 2, rfl⟩
    have hlt : (s.reg ra).toNat % (s.reg rb).toNat < 256 := (Nat.mod_le _ _).trans_lt (s.reg ra).isLt
    rw [advance_reg, applyAlu_value, setReg_reg_self, wrap8_natCast_toNat, Nat.mod_eq_of_lt hlt]
  · exact ⟨_, binaryArm_mod.exec_error ((alu_mod _ _).trans (if_pos hb)), rfl, rfl, rfl⟩

/-- Settles O12: each is the unary arm with the exact result narrowed by `wrap8`. -/
theorem incDecResults : Obligations.IncDecResults :=
  ⟨unaryArm_inc.result alu_inc fun a => wrap8_natCast_toNat (a.toNat + 1),
    unaryArm_dec.result alu_dec fun a => wrap8_toNat (a.toNat - 1),
    unaryArm_inc.indexFault, unaryArm_dec.indexFault, fun _ => rfl, fun _ => rfl⟩

/-- Settles O14: each is the binary arm with the bit vector operation, which acts bit by bit. -/
theorem andOrXorBitwise : Obligations.AndOrXorBitwise :=
  ⟨binaryArm_and.result alu_and fun _ _ _ _ => BitVec.getLsbD_and,
    binaryArm_or.result alu_or fun _ _ _ _ => BitVec.getLsbD_or,
    binaryArm_xor.result alu_xor fun _ _ _ _ => BitVec.getLsbD_xor,
    binaryArm_and.indexFaults, binaryArm_or.indexFaults, binaryArm_xor.indexFaults,
    fun _ _ => rfl, fun _ _ => rfl, fun _ _ => rfl⟩

/-- Settles O16: the ALU's output is the flags alone; an index fault is void; and `exec_fl` for every other instruction. -/
theorem cmpWritesFlags : Obligations.CmpWritesFlags := by
  refine ⟨fun s ra rb => ?_, binaryArm_cmp.indexFaults, fun _ _ _ _ => binaryArm_cmp.fl_of_index_ge,
    fun _ _ _ h hne => (exec_fl h).resolve_left hne, fun _ _ => rfl⟩
  exact ⟨_, binaryArm_cmp.exec_ok (alu_cmp _ _), compareFlags_of_eq, compareFlags_of_gt, compareFlags_of_lt,
    registerForm_setFl_advance s _ 2⟩

end Sys2Proof.Machine
end

section
/-! SUPPORT. LDI and the two prints (spec/42_load_immediate_and_output.md), each on a register and on an invalid index. -/

namespace Sys2Proof.Machine

/-- R170 on a register: the literal is written as fetched, then `pc` passes the two operand bytes. -/
theorem exec_ldi_regByte (s : State) (r : Fin 8) (imm : Byte) :
    exec (.ldi (regByte r) imm) s = .next ((s.setReg r imm).advance 2) :=
  congrArg (settle s) (loadImmediate_regByte r imm s)

theorem exec_ldi_ge (s : State) {a : Byte} (imm : Byte) (h : 8 ≤ a.toNat) :
    exec (.ldi a imm) s = .next (raise (.regOutOfBounds a) s) :=
  congrArg (settle s) (loadImmediate_ge imm s h)

/-- The instructions `mk` are dispatched to the print arm with the event `event`. -/
def PrintArm (mk : Byte → Instr) (event : Byte → OutputEvent) : Prop :=
  ∀ a s, exec (mk a) s = settle s (printRegister event a s)

theorem printArm_prn : PrintArm .prn .printNum := fun _ _ => rfl
theorem printArm_pra : PrintArm .pra .printChar := fun _ _ => rfl

section
variable {mk : Byte → Instr} {event : Byte → OutputEvent} (arm : PrintArm mk event)
include arm

/-- R171, R172 on a register: one event is appended, and of the rest only `pc` moves. -/
theorem PrintArm.emits (s : State) (r : Fin 8) :
    ∃ t, exec (mk (regByte r)) s = .next t ∧ t.out = s.out ++ [event (s.reg r)] ∧ t.pc = s.pc + 2#9 ∧
      RegsSameBut s t [] ∧ t.fl = s.fl ∧ MemSame s t ∧ t.run = s.run ∧ t.fault = s.fault := by
  refine ⟨(s.emit (event (s.reg r))).advance 1, ?_, rfl, rfl, fun _ _ => rfl, rfl, fun _ => rfl, rfl, rfl⟩
  rw [arm, printRegister_regByte, settle_ok]

/-- R171, R172: the register is read before the event is emitted, so an index fault emits nothing. -/
theorem PrintArm.indexFault (s : State) (a : Byte) (h : 8 ≤ a.toNat) :
    ∃ t, exec (mk a) s = .next t ∧ t.run = .faulted ∧ t.fault = some (.regOutOfBounds a) ∧ t.out = s.out := by
  refine ⟨raise (.regOutOfBounds a) s, ?_, rfl, rfl, rfl⟩
  rw [arm, printRegister_ge event s h, settle_error]

end

end Sys2Proof.Machine
end

section
/-! SUPPORT. The load and print statements (R170 to R172), assembled from the arms. -/

namespace Sys2Proof.Machine

/-- Settles O19: on a register LDI is a register write and an advance; an index fault is void. -/
theorem ldiLoadsLiteral : Obligations.LdiLoadsLiteral := by
  refine ⟨fun s r imm => ?_, fun s a imm h => ?_, fun _ _ => rfl⟩
  · exact ⟨_, exec_ldi_regByte s r imm, setReg_reg_self s r imm, registerForm_setReg_advance s r imm 2, rfl⟩
  · exact ⟨_, exec_ldi_ge s imm h, rfl, rfl, fun _ _ => rfl, rfl⟩

/-- Settles O20: PRN and PRA are the print arm with two events. -/
theorem printsEmitRegisterValue : Obligations.PrintsEmitRegisterValue :=
  ⟨fun s r => ⟨printArm_prn.emits s r, printArm_pra.emits s r⟩,
    fun s a h => ⟨printArm_prn.indexFault s a h, printArm_pra.indexFault s a h⟩, fun _ => rfl, fun _ => rfl⟩

end Sys2Proof.Machine
end

section
/-! SUPPORT. The decoder and the encoder (spec/30_encoding.md R80 to R97): what each reads and writes is an opcode's code
followed by as many operand bytes as the opcode has. -/

namespace Sys2Proof

theorem encode_build (o : Opcode) (a b : Byte) : encode (o.build a b) = o.code :: [a, b].take o.operands := by
  rw [encode, build_opcode, build_operandBytes]

/-- What the decoder reads after an opcode byte is that opcode's operand bytes, by their number. -/
theorem decodeOperands_eq_instr_iff {ir : Byte} {o : Opcode} {bs rest : List Byte} {i : Instr} :
    decodeOperands ir o bs = .instr i rest ↔ i.opcode = o ∧ bs = i.operandBytes ++ rest := by
  constructor
  · intro h
    unfold decodeOperands at h
    split at h
    case h_1 n | h_2 n | h_3 n =>
      cases h
      rw [build_opcode, build_operandBytes, n]
      exact ⟨rfl, rfl⟩
    case h_4 => cases h
  · rintro ⟨rfl, rfl⟩
    cases i <;> rfl

theorem decode_cons_of_ofByte? {ir : Byte} {o : Opcode} (h : Opcode.ofByte? ir = some o) (rest : List Byte) :
    decode (ir :: rest) = decodeOperands ir o rest := by
  simp only [decode, h]

theorem decode_cons_unassigned {ir : Byte} (h : Opcode.ofByte? ir = none) (rest : List Byte) :
    decode (ir :: rest) = .reject (.unassigned ir) := by
  simp only [decode, h]

/-- A byte is unassigned when it is the code of no row of R86 (R90). -/
theorem ofByte?_eq_none_iff {b : Byte} : Opcode.ofByte? b = none ↔ ∀ o : Opcode, o.code ≠ b := by
  constructor
  · rintro h o rfl
    rw [ofByte?_code] at h
    cases h
  · intro h
    cases hb : Opcode.ofByte? b with
    | none => rfl
    | some o => exact absurd (code_of_ofByte? hb) (h o)

/-- The bytes of an opcode that are not all there are rejected as truncated, never as unassigned. -/
theorem decodeOperands_ne_unassigned (ir b : Byte) (o : Opcode) (bs : List Byte) :
    decodeOperands ir o bs ≠ .reject (.unassigned b) := by
  unfold decodeOperands
  split <;> simp

/-- Settles O1: byte by byte, the opcode by `ofByte?_iff` and the operands by `decodeOperands_eq_instr_iff`. -/
theorem decodeGivesBackEncoded : Obligations.DecodeGivesBackEncoded := by
  intro bs i rest
  cases bs with
  | nil => simp [decode, encode]
  | cons ir bs =>
    have henc : ir :: bs = encode i ++ rest ↔ i.opcode.code = ir ∧ bs = i.operandBytes ++ rest := by
      simp [encode, eq_comm]
    rw [henc]
    cases hir : Opcode.ofByte? ir with
    | none =>
      rw [decode_cons_unassigned hir]
      exact ⟨nofun, fun h => absurd h.1 (ofByte?_eq_none_iff.1 hir _)⟩
    | some o =>
      rw [decode_cons_of_ofByte? hir, decodeOperands_eq_instr_iff, ← ofByte?_iff, hir, Option.some_inj, eq_comm (a := o)]

theorem decode_encode (i : Instr) (rest : List Byte) : decode (encode i ++ rest) = .instr i rest :=
  (decodeGivesBackEncoded _ i rest).2 rfl

/-- Settles O2: the decoder reads the first instruction off the bytes and leaves those of the others. -/
theorem programBytesDetermineInstructions : Obligations.ProgramBytesDetermineInstructions := by
  intro p
  induction p with
  | nil =>
    rintro (_ | ⟨j, q⟩) h
    · rfl
    · cases h
  | cons i p ih =>
    rintro (_ | ⟨j, q⟩) h
    · cases h
    · rw [List.flatMap_cons, List.flatMap_cons] at h
      have hdec := decode_encode i (p.flatMap encode)
      rw [h, decode_encode] at hdec
      obtain ⟨rfl, hrest⟩ := Decoded.instr.inj hdec
      rw [ih q hrest.symm]

/-- Settles O3: a byte of the table is never rejected as unassigned, and any other byte always is. -/
theorem unassignedBytesRejected : Obligations.UnassignedBytesRejected := by
  intro b rest
  rw [← ofByte?_eq_none_iff]
  cases hb : Opcode.ofByte? b with
  | none => exact iff_of_true (decode_cons_unassigned hb rest) rfl
  | some o =>
    rw [decode_cons_of_ofByte? hb]
    exact iff_of_false (decodeOperands_ne_unassigned b b o rest) nofun

/-- Settles O4: each word is the encoding of its instruction, or begins with a byte of no row. -/
theorem writtenWordsDecode : Obligations.WrittenWordsDecode :=
  ⟨decode_encode (.ldi _ _) [], decode_encode (.prn _) [], decode_encode .hlt [], decode_encode (.add _ _) [],
    decode_encode (.push _) [], decode_encode (.jge _) [], decode_encode .int [_], decode_cons_unassigned rfl [_]⟩

/-- The length of an unassigned unit is that of its opcode byte (R94). -/
theorem unitLength_unassigned {ir : Byte} (h : Opcode.ofByte? ir = none) : unitLength ir = 1 := by
  simp [unitLength, decodeOpcode_none h]

theorem unitLength_code (o : Opcode) : unitLength o.code = o.operands + 1 := by
  rw [unitLength, decodeOpcode_code, Nat.add_comm]

/-- Settles O5: by the rows of the table; a byte of no row is in neither list. -/
theorem unitLengthByOpcode : Obligations.UnitLengthByOpcode := by
  refine fun ir => ⟨rfl, ?_⟩
  cases hir : Opcode.ofByte? ir with
  | some o =>
    rw [← code_of_ofByte? hir]
    cases o <;> decide
  | none =>
    have notIn {l : List Byte} (hl : ∀ b ∈ l, Opcode.ofByte? b ≠ none) : ir ∉ l := fun h => hl ir h hir
    rw [unitLength_unassigned hir, if_neg (notIn (by decide)), if_neg (notIn (by decide))]

end Sys2Proof
end

section
/-! SUPPORT. What a program counter update leaves (spec/41_engine.md R146), one lemma per field. -/

namespace Sys2Proof.Machine

variable (s : State) (n : Nat) (v : Byte)

@[simp] theorem advance_pc : (s.advance n).pc = s.pc + BitVec.ofNat 9 (n + 1) := rfl
@[simp] theorem advance_fl : (s.advance n).fl = s.fl := rfl
@[simp] theorem advance_mem : (s.advance n).mem = s.mem := rfl
@[simp] theorem advance_run : (s.advance n).run = s.run := rfl
@[simp] theorem advance_fault : (s.advance n).fault = s.fault := rfl
@[simp] theorem advance_out : (s.advance n).out = s.out := rfl

@[simp] theorem transfer_reg (r) : (s.transfer n v).reg r = s.reg r := rfl
@[simp] theorem transfer_pc : (s.transfer n v).pc = zext9 v := rfl
@[simp] theorem transfer_fl : (s.transfer n v).fl = s.fl := rfl
@[simp] theorem transfer_mem : (s.transfer n v).mem = s.mem := rfl
@[simp] theorem transfer_run : (s.transfer n v).run = s.run := rfl
@[simp] theorem transfer_fault : (s.transfer n v).fault = s.fault := rfl
@[simp] theorem transfer_out : (s.transfer n v).out = s.out := rfl

end Sys2Proof.Machine
end

section
/-! SUPPORT. Memory (spec/20_memory.md R53, R54). -/

namespace Sys2Proof.Machine

/-- Settles O7: outside the capacity both accesses raise; inside, everything is `memWrite_ok`. -/
theorem memoryReadAfterWrite : Obligations.MemoryReadAfterWrite := by
  refine ⟨fun m addr v h => ⟨memRead_error_iff.2 ⟨h, rfl⟩, memWrite_error_iff.2 ⟨h, rfl⟩⟩, fun m addr v hwf h => ?_⟩
  obtain ⟨m', hm⟩ := memWrite_isOk v h
  obtain ⟨-, hcap, hother, hself⟩ := memWrite_ok hm
  obtain ⟨hread, hwf'⟩ := hself hwf
  exact ⟨m', hm, hread, hother, hcap, hwf'⟩

end Sys2Proof.Machine
end

section
/-! SUPPORT. The ALU instructions of spec/40_alu.md section 2 and 4 to 6 that remain: DIV, NOT, the shifts and ST; and the
selects of the alu block. -/

namespace Sys2Proof.Machine

theorem binaryArm_div : BinaryArm .div 0xA3#8 := fun _ _ _ => rfl
theorem binaryArm_shl : BinaryArm .shl 0xAC#8 := fun _ _ _ => rfl
theorem binaryArm_shr : BinaryArm .shr 0xAD#8 := fun _ _ _ => rfl
theorem binaryArm_st : BinaryArm .st 0x84#8 := fun _ _ _ => rfl
theorem unaryArm_not : UnaryArm .not 0x69#8 := fun _ _ => rfl

theorem wrap8_natCast_of_lt {n : Nat} (h : n < 256) : (wrap8 (n : Int)).toNat = n := by
  rw [wrap8_natCast_toNat, Nat.mod_eq_of_lt h]

/-- Settles O9: the quotient is below 256, so `wrap8` keeps it; a zero divisor makes the ALU raise. -/
theorem divQuotient : Obligations.DivQuotient := by
  refine ⟨fun s ra rb hb => ?_, fun s ra rb hb => ?_, binaryArm_div.indexFaults, fun _ _ => rfl⟩
  · refine ⟨_, binaryArm_div.exec_ok ((alu_div _ _).trans (if_neg hb)), ?_, registerForm_setReg_advance s ra _ 2, rfl⟩
    have hlt : (s.reg ra).toNat / (s.reg rb).toNat < 256 := (Nat.div_le_self _ _).trans_lt (s.reg ra).isLt
    rw [advance_reg, applyAlu_value, setReg_reg_self, wrap8_natCast_of_lt hlt]
  · exact ⟨_, binaryArm_div.exec_error ((alu_div _ _).trans (if_pos hb)), rfl, rfl, rfl⟩

/-- Settles O11: O9 and O10 give the quotient and the remainder, and the rest is Euclid's division. -/
theorem divModReconstruct : Obligations.DivModReconstruct := by
  intro s ra rb hb
  obtain ⟨t, ht, hquot, -⟩ := divQuotient.1 s ra rb hb
  obtain ⟨u, hu, hrem, -⟩ := modRemainder.1 s ra rb hb
  refine ⟨t, u, ht, hu, ?_, ?_⟩
  · rw [hquot, hrem, Nat.div_add_mod']
  · rw [hrem]
    exact Nat.mod_lt _ (Nat.pos_of_ne_zero hb)

/-- R121: the exact complement to 255 is the bitwise one. -/
theorem wrap8_complement (a : Byte) : wrap8 (255 - a.toNat) = ~~~a := by
  apply BitVec.eq_of_toNat_eq
  have h := wrap8_toNat (255 - a.toNat)
  have ha := a.isLt
  rw [BitVec.toNat_not]
  omega

/-- Settles O13: the unary arm with the complement. -/
theorem notInverts : Obligations.NotInverts := by
  refine ⟨unaryArm_not.result alu_not fun a => ?_, unaryArm_not.indexFault, fun _ => rfl⟩
  rw [wrap8_complement]
  exact ⟨BitVec.toNat_not, fun k hk => by simp [hk]⟩

/-- R122: from a count of 8 the power is a multiple of 256, so the exact product wraps to 0 as the table says. -/
theorem shiftLeft_toNat (a c : Byte) : (shiftLeft a c).toNat = a.toNat * 2 ^ c.toNat % 256 := by
  unfold shiftLeft
  split
  · next hc =>
    have hdvd : 256 ∣ a.toNat * 2 ^ c.toNat := (pow_dvd_pow 2 hc).mul_left a.toNat
    exact (Nat.mod_eq_zero_of_dvd hdvd).symm
  · exact_mod_cast wrap8_natCast_toNat (a.toNat * 2 ^ c.toNat)

/-- R123: from a count of 8 the power is above every value, so the exact quotient is 0 as the table says. -/
theorem shiftRight_toNat (a c : Byte) : (shiftRight a c).toNat = a.toNat / 2 ^ c.toNat := by
  unfold shiftRight
  split
  · next hc =>
    have hpow : 2 ^ 8 ≤ 2 ^ c.toNat := Nat.pow_le_pow_right (by decide) hc
    exact (Nat.div_eq_of_lt (a.isLt.trans_le hpow)).symm
  · exact wrap8_natCast_of_lt ((Nat.div_le_self _ _).trans_lt a.isLt)

theorem shiftLeft_of_ge {a c : Byte} (h : 8 ≤ c.toNat) : shiftLeft a c = 0#8 := if_pos h
theorem shiftRight_of_ge {a c : Byte} (h : 8 ≤ c.toNat) : shiftRight a c = 0#8 := if_pos h

/-- Settles O15: each is the binary arm with the shift. -/
theorem shiftResults : Obligations.ShiftResults :=
  ⟨binaryArm_shl.result alu_shl fun a c => ⟨shiftLeft_toNat a c, fun h => by rw [shiftLeft_of_ge h]; rfl⟩,
    binaryArm_shr.result alu_shr fun a c => ⟨shiftRight_toNat a c, fun h => by rw [shiftRight_of_ge h]; rfl⟩,
    binaryArm_shl.indexFaults, binaryArm_shr.indexFaults, fun _ _ => rfl, fun _ _ => rfl⟩

/-- Settles O17: the binary arm with the second operand as its value. -/
theorem stCopiesRegister : Obligations.StCopiesRegister :=
  ⟨binaryArm_st.result alu_st fun _ _ => rfl, binaryArm_st.indexFaults, fun _ _ => rfl⟩

/-- The fifteen selects of the alu block (R110). -/
def aluSelects : List Byte :=
  [0xA0#8, 0xA1#8, 0xA2#8, 0xA3#8, 0xA4#8, 0x65#8, 0x66#8, 0xA8#8, 0xAA#8, 0xAB#8, 0x69#8, 0xAC#8, 0xAD#8, 0xA7#8, 0x84#8]

theorem alu_unsupported {op : Byte} (h : op ∉ aluSelects) (a b : Byte) : alu op a b = .error (.unsupportedAluOp op) := by
  have hne : ∀ k ∈ aluSelects, op.toNat ≠ k.toNat := fun k hk e => h (BitVec.eq_of_toNat_eq e ▸ hk)
  simp only [aluSelects, List.forall_mem_cons] at hne
  unfold alu
  split
  case h_16 => rfl
  all_goals simp_all

/-- R110, R114, R115: the one fault of a select of the alu block is the zero divisor of DIV and MOD. -/
theorem alu_error {op a b : Byte} {c : FaultCause} (hop : op ∈ aluSelects) (h : alu op a b = .error c) :
    c = .divideByZero op ∧ (op = 0xA3#8 ∨ op = 0xA4#8) := by
  simp only [aluSelects, List.mem_cons, List.not_mem_nil, or_false] at hop
  obtain rfl | rfl | rfl | rfl | rfl | rfl | rfl | rfl | rfl | rfl | rfl | rfl | rfl | rfl | rfl := hop
  case inr.inr.inr.inl =>
    rw [alu_div] at h
    split at h <;> cases h
    exact ⟨rfl, .inl rfl⟩
  case inr.inr.inr.inr.inl =>
    rw [alu_mod] at h
    split at h <;> cases h
    exact ⟨rfl, .inr rfl⟩
  all_goals cases h

/-- Settles O18: a select of the fifteen raises at most DivideByZero, and any other falls to the last arm. -/
theorem aluSelectsSupported : Obligations.AluSelectsSupported := by
  intro op a b x
  by_cases h : op ∈ aluSelects
  · exact iff_of_false (fun e => nomatch (alu_error h e).1) fun hx => hx.2 h
  · rw [alu_unsupported h]
    exact ⟨fun hx => ⟨by cases hx; rfl, h⟩, fun hx => by rw [hx.1]⟩

end Sys2Proof.Machine
end

section
/-! SUPPORT. Output (spec/42_load_immediate_and_output.md; the texts of spec/10_state.md R43, R44). -/

namespace Sys2Proof.Machine

/-- Settles O21: the register PRN reads is the one LDI wrote. -/
theorem ldiThenPrnPrintsLiteral : Obligations.LdiThenPrnPrintsLiteral := by
  intro s r imm
  obtain ⟨u, hu, hout, hpc, -⟩ := printArm_prn.emits ((s.setReg r imm).advance 2) r
  refine ⟨_, u, exec_ldi_regByte s r imm, hu, ?_, ?_⟩
  · simpa [setReg_reg_self] using hout
  · rw [hpc]
    exact BitVec.add_assoc s.pc 3#9 2#9

/-- The value of a text read as decimal digits, the most significant first. -/
def digitsValue (digits : List Byte) : Nat := digits.foldl (fun n d => 10 * n + (d.toNat - 0x30)) 0

theorem digitChar_toNat {d : Nat} (h : d < 10) : (digitChar d).toNat = d + 0x30 := by
  simp only [digitChar, BitVec.toNat_ofNat]
  omega

theorem digitChar_isDigit {d : Nat} (h : d < 10) : 0x30 ≤ (digitChar d).toNat ∧ (digitChar d).toNat ≤ 0x39 := by
  rw [digitChar_toNat h]
  omega

theorem digitChar_ne_zero {d : Nat} (h : d < 10) (h0 : d ≠ 0) : digitChar d ≠ 0x30#8 := by
  intro e
  have hd : d + 0x30 = 0x30 := (digitChar_toNat h).symm.trans (congrArg BitVec.toNat e)
  omega

/-- The text of PrintNum without its terminator (R43): digits that say `n`, the first of them not 0 unless it is alone. -/
structure DecimalOf (digits : List Byte) (n : Nat) : Prop where
  nonempty : digits ≠ []
  isDigit : ∀ d ∈ digits, 0x30 ≤ d.toNat ∧ d.toNat ≤ 0x39
  value : digitsValue digits = n
  noLeadingZero : digits.head? = some 0x30#8 → digits = [0x30#8]

/-- R43, by the number of digits. -/
theorem decimalText_spec (v : Byte) : DecimalOf (decimalText v) v.toNat := by
  have hv := v.isLt
  dsimp only [decimalText]
  split
  · next h1 =>
    refine ⟨nofun, ?_, ?_, fun h0 => ?_⟩
    · simpa using digitChar_isDigit h1
    · simp [digitsValue, digitChar_toNat h1]
    · simpa using h0
  split
  · next h1 h2 =>
    have hhi : v.toNat / 10 < 10 := by omega
    have hlo : v.toNat % 10 < 10 := by omega
    refine ⟨nofun, ?_, ?_, fun h0 => absurd (Option.some_inj.1 h0) (digitChar_ne_zero hhi (by omega))⟩
    · simpa using ⟨digitChar_isDigit hhi, digitChar_isDigit hlo⟩
    · simp only [digitsValue, List.foldl_cons, List.foldl_nil, digitChar_toNat hhi, digitChar_toNat hlo]
      omega
  · next h1 h2 =>
    have hhi : v.toNat / 100 < 10 := by omega
    have hmid : v.toNat / 10 % 10 < 10 := by omega
    have hlo : v.toNat % 10 < 10 := by omega
    refine ⟨nofun, ?_, ?_, fun h0 => absurd (Option.some_inj.1 h0) (digitChar_ne_zero hhi (by omega))⟩
    · simpa using ⟨digitChar_isDigit hhi, digitChar_isDigit hmid, digitChar_isDigit hlo⟩
    · simp only [digitsValue, List.foldl_cons, List.foldl_nil, digitChar_toNat hhi, digitChar_toNat hmid,
        digitChar_toNat hlo]
      omega

/-- Settles O22: the digits are `decimalText`; below 128 PRA's text is the byte itself. -/
theorem printedTextIsDecimal : Obligations.PrintedTextIsDecimal := by
  intro v
  obtain ⟨hne, hdigit, hvalue, hzero⟩ := decimalText_spec v
  exact ⟨⟨decimalText v, rfl, hne, hdigit, hvalue, hzero⟩, fun h => congrArg (· ++ [0x0A#8]) (if_pos h)⟩

end Sys2Proof.Machine
end

section
/-! SUPPORT. The stack (spec/43_stack.md): what a push and a pop leave, and from that PUSH and POP. -/

namespace Sys2Proof.Machine

/-! ### push and pop -/

/-- R180: `v` is stored at `pushAddr s`, `SP` takes that address, and nothing else changes, but `pc` is left open. -/
structure PushForm (s t : State) (v : Byte) : Prop where
  stored : memRead t.mem (pushAddr s) = .ok v
  mem : MemSameBut s t (pushAddr s)
  sp : t.sp.toNat = pushAddr s
  regs : RegsSameBut s t [7]
  fl : t.fl = s.fl
  status : StatusSame s t

theorem PushForm.setPc {s t : State} {v : Byte} (h : PushForm s t v) (pc : PcWord) : PushForm s (t.setPc pc) v :=
  ⟨h.stored, h.mem, h.sp, h.regs, h.fl, h.status⟩

theorem push_inside {s : State} (v : Byte) (hwf : s.mem.wf = true) (h : pushAddr s < s.mem.capacity) :
    ∃ t, push v s = .ok t ∧ PushForm s t v ∧ t.pc = s.pc := by
  obtain ⟨hc, -⟩ | ⟨m, hm, hpush⟩ := push_cases v s
  · omega
  obtain ⟨-, -, hother, hself⟩ := memWrite_ok hm
  exact ⟨_, hpush, ⟨(hself hwf).1, hother, congrArg BitVec.toNat (setReg_reg_self ..),
    regsSameBut_setReg (s.setMem m) 7 _, rfl, rfl, rfl, rfl⟩, rfl⟩

theorem push_outside {s : State} (v : Byte) (h : s.mem.capacity ≤ pushAddr s) :
    push v s = .error (.memOutOfBounds (pushAddr s)) := by
  obtain ⟨-, hpush⟩ | ⟨m, hm, -⟩ := push_cases v s
  · exact hpush
  · have := (memWrite_ok hm).1
    omega

theorem pop_inside {s : State} (h : s.sp.toNat < s.mem.capacity) :
    ∃ v, memRead s.mem s.sp.toNat = .ok v ∧ pop s = .ok (v, s.setReg 7 (wrap8 (s.sp.toNat + 1))) := by
  obtain ⟨hc, -⟩ | hpop := pop_cases s
  · omega
  · exact hpop

theorem pop_outside {s : State} (h : s.mem.capacity ≤ s.sp.toNat) : pop s = .error (.memOutOfBounds s.sp.toNat) := by
  obtain ⟨-, hpop⟩ | ⟨v, hv, -⟩ := pop_cases s
  · exact hpop
  · have := (memRead_ok_iff.1 hv).1
    omega

theorem setReg_sp_up (s : State) :
    (s.setReg 7 (wrap8 (s.sp.toNat + 1))).sp.toNat = (s.sp.toNat + 1) % 256 := by
  rw [sp_eq, setReg_reg_self]
  exact_mod_cast wrap8_natCast_toNat (s.sp.toNat + 1)

/-- Settles O23: `pushAddr` is `SP - 1` modulo 256, and each operation is inside or outside memory. -/
theorem stackOperationsAddress : Obligations.StackOperationsAddress := by
  refine ⟨pushAddr_eq, fun s v hwf h => ?_, fun s v h => ?_, fun s h => ?_, fun s h => pop_outside h⟩
  · rw [← pushAddr_eq] at h ⊢
    obtain ⟨t, hpush, form, hpc⟩ := push_inside v hwf h
    exact ⟨t, hpush, form.sp, form.stored, form.mem, form.regs, hpc, form.fl, form.status⟩
  · rw [← pushAddr_eq] at h ⊢
    exact push_outside v h
  · obtain ⟨v, hread, hpop⟩ := pop_inside h
    exact ⟨v, _, hpop, hread, setReg_sp_up s, rfl, regsSameBut_setReg s 7 _, rfl, rfl, statusSame_setReg s 7 _⟩

/-! ### PUSH and POP -/

theorem exec_push_inside {s : State} (r : Fin 8) (hwf : s.mem.wf = true) (h : pushAddr s < s.mem.capacity) :
    ∃ t, exec (.push (regByte r)) s = .next t ∧ PushForm s t (s.reg r) ∧ t.pc = s.pc + 2#9 := by
  obtain ⟨t, hpush, form, hpc⟩ := push_inside (s.reg r) hwf h
  refine ⟨t.advance 1, ?_, form.setPc _, by rw [advance_pc, hpc]⟩
  rw [exec_eq_settle, pseudocode, pushRegister_regByte, hpush]
  rfl

/-- Settles O24: a push of the register, then the advance. -/
theorem pushStoresRegister : Obligations.PushStoresRegister := by
  refine ⟨fun s r hwf h => ?_, fun _ => rfl⟩
  obtain ⟨t, hexec, form, hpc⟩ := exec_push_inside r hwf h
  exact ⟨t, hexec, form.stored, form.mem, form.sp, form.regs, hpc, form.fl, form.status⟩

/-- POP on a register, when the cell at `SP` exists: two register writes, the one of operand A last (decision D15). -/
theorem exec_pop_inside {s : State} (r : Fin 8) (h : s.sp.toNat < s.mem.capacity) :
    ∃ v, memRead s.mem s.sp.toNat = .ok v ∧
      exec (.pop (regByte r)) s = .next (((s.setReg 7 (wrap8 (s.sp.toNat + 1))).setReg r v).advance 1) := by
  obtain ⟨v, hread, hpop⟩ := pop_inside h
  refine ⟨v, hread, ?_⟩
  rw [exec_eq_settle, pseudocode, popRegister_eq, hpop, Except.bind, regWrite_regByte]
  rfl

/-- Settles O25: a pop into the register, then the advance. -/
theorem popLoadsRegister : Obligations.PopLoadsRegister := by
  refine ⟨fun s r h => ?_, fun _ => rfl⟩
  obtain ⟨v, hread, hexec⟩ := exec_pop_inside r h
  refine ⟨_, hexec, ?_, fun hr => ?_, fun r' hr' => ?_, fun _ => rfl, rfl, rfl, rfl, rfl, rfl⟩
  · rw [hread, advance_reg, setReg_reg_self]
  · rw [sp_eq, advance_reg, setReg_reg_ne _ _ hr.symm]
    exact setReg_sp_up s
  · simp only [List.mem_cons, List.not_mem_nil, or_false, not_or] at hr'
    rw [advance_reg, setReg_reg_ne _ _ hr'.1, setReg_reg_ne _ _ hr'.2]

theorem raises_of_pseudocode {i : Instr} {s : State} {c : FaultCause} (h : pseudocode i s = .error c) : Raises i s c :=
  ⟨raise c s, by rw [exec_eq_settle, h, settle_error], rfl, rfl⟩

/-- Settles O26: PUSH reads its register before the push; POP and CALL access the stack before their register. -/
theorem stackFaultPriority : Obligations.StackFaultPriority := by
  refine ⟨fun s a ha => raises_of_pseudocode (pushRegister_ge s ha), fun s r h => raises_of_pseudocode ?_,
    fun s a h => raises_of_pseudocode ?_, fun s a h ha => raises_of_pseudocode ?_,
    fun s a h => raises_of_pseudocode ?_, fun s a h ha => raises_of_pseudocode ?_⟩
  · rw [pseudocode, pushRegister_regByte, push_outside _ h, Except.map]
  · rw [pseudocode, popRegister_eq, pop_outside h, Except.bind]
  · obtain ⟨v, -, hpop⟩ := pop_inside h
    rw [pseudocode, popRegister_eq, hpop, Except.bind, regWrite_ge _ _ ha, Except.map]
  · rw [pseudocode, callRegister_eq, push_outside _ h, Except.bind]
  · obtain ⟨hc, -⟩ | ⟨m, -, hpush⟩ := push_cases (returnAddress s) s
    · omega
    · rw [pseudocode, callRegister_eq, hpush, Except.bind, regRead_ge _ ha, Except.map]

/-- R186: the address a push takes is one below the `SP` it found, so moving up from it gives that `SP` back. -/
theorem sp_eq_of_up {s u : State} (h : u.sp.toNat = (pushAddr s + 1) % 256) : u.sp = s.sp := by
  have := s.sp.isLt
  rw [pushAddr_eq] at h
  exact BitVec.eq_of_toNat_eq (by omega)

/-- Settles O27: O25 in the state that O24 leaves. -/
theorem pushPopRoundTrip : Obligations.PushPopRoundTrip := by
  intro s ra rb hwf h _ hrb
  obtain ⟨t, hpush, form, hpc⟩ := exec_push_inside ra hwf h
  have hcap : t.sp.toNat < t.mem.capacity := form.sp ▸ (memRead_ok_iff.1 form.stored).1
  obtain ⟨u, hpop, hread, hsp, hregs, hmem, hpc', -⟩ := popLoadsRegister.1 t rb hcap
  have hsp' : u.sp = s.sp := sp_eq_of_up (form.sp ▸ hsp hrb)
  refine ⟨t, u, hpush, hpop, hsp', ?_, fun r hr => ?_, (hmem _).trans form.stored,
    fun addr ha => (hmem addr).trans (form.mem addr ha), ?_⟩
  · rw [form.sp, form.stored] at hread
    exact (Except.ok.inj hread).symm
  · by_cases hr7 : r = 7
    · rw [hr7]
      exact hsp'
    · have hr' : r ≠ rb := List.ne_of_not_mem_cons hr
      exact (hregs r (by simp [hr7, hr'])).trans (form.regs r (by simp [hr7]))
  · rw [hpc', hpc]
    exact BitVec.add_assoc s.pc 2#9 2#9

end Sys2Proof.Machine
end

section
/-! SUPPORT. Control transfer (spec/44_control_transfer.md): the seven jumps in their common form (R204), CALL and RET. -/

namespace Sys2Proof.Machine

/-! ### Jumps -/

/-- The instructions `mk` are dispatched to the jump arm with the opcode byte `op`. -/
def JumpArm (mk : Byte → Instr) (op : Byte) : Prop := ∀ a s, exec (mk a) s = settle s (jump op a s)

/-- R204: a jump is taken exactly when its condition holds of `FL`, and its register is read only then (R193). -/
theorem JumpArm.form {mk : Byte → Instr} {op : Byte} (arm : JumpArm mk op) {taken : Byte → Prop}
    (hcond : ∀ fl, cond op fl = true ↔ taken fl) : JumpForm mk taken where
  jumps s r h := by
    refine ⟨s.transfer 1 (s.reg r), ?_, zext9_toNat _, fun _ _ => rfl, rfl, fun _ => rfl, rfl, rfl, rfl⟩
    rw [arm, jump_taken ((hcond _).2 h), settle_ok]
  indexFault s a h ha := by
    refine ⟨raise (.regOutOfBounds a) s, ?_, rfl, rfl, rfl⟩
    rw [arm, jump_taken_ge ((hcond _).2 h) ha, settle_error]
  fallsThrough s a h := by
    refine ⟨s.advance 1, ?_, rfl, fun _ _ => rfl, rfl, fun _ => rfl, rfl, rfl, rfl⟩
    have hfalse : cond op s.fl = false := Bool.eq_false_iff.2 fun e => h ((hcond _).1 e)
    rw [arm, jump_notTaken hfalse, settle_ok]

theorem jumpForm_jmp : JumpForm .jmp (fun _ => True) :=
  JumpArm.form (op := 0x54#8) (fun _ _ => rfl) fun fl => iff_of_true (cond_jmp fl) trivial

theorem jumpForm_jeq : JumpForm .jeq (fun fl => fl.getLsbD 0 = true) :=
  JumpArm.form (op := 0x55#8) (fun _ _ => rfl) fun _ => Iff.rfl

theorem jumpForm_jne : JumpForm .jne (fun fl => fl.getLsbD 0 = false) :=
  JumpArm.form (op := 0x56#8) (fun _ _ => rfl) fun fl => by rw [cond_jne, Bool.not_eq_true', flagE]

theorem jumpForm_jgt : JumpForm .jgt (fun fl => fl.getLsbD 1 = true) :=
  JumpArm.form (op := 0x57#8) (fun _ _ => rfl) fun _ => Iff.rfl

theorem jumpForm_jlt : JumpForm .jlt (fun fl => fl.getLsbD 2 = true) :=
  JumpArm.form (op := 0x58#8) (fun _ _ => rfl) fun _ => Iff.rfl

theorem jumpForm_jle : JumpForm .jle (fun fl => fl.getLsbD 0 = true ∨ fl.getLsbD 2 = true) :=
  JumpArm.form (op := 0x59#8) (fun _ _ => rfl) fun fl => by rw [cond_jle, Bool.or_eq_true, flagE, flagL]

theorem jumpForm_jge : JumpForm .jge (fun fl => fl.getLsbD 0 = true ∨ fl.getLsbD 1 = true) :=
  JumpArm.form (op := 0x5A#8) (fun _ _ => rfl) fun fl => by rw [cond_jge, Bool.or_eq_true, flagE, flagG]

/-- Settles O28: the jump arm with each of the seven conditions of R190. -/
theorem jumpsFollowCondition : Obligations.JumpsFollowCondition :=
  ⟨jumpForm_jmp, jumpForm_jeq, jumpForm_jne, jumpForm_jgt, jumpForm_jlt, jumpForm_jle, jumpForm_jge,
    fun _ => rfl, fun _ => rfl, fun _ => rfl, fun _ => rfl, fun _ => rfl, fun _ => rfl, fun _ => rfl⟩

theorem JumpForm.jumpsTo {mk : Byte → Instr} {taken : Byte → Prop} (form : JumpForm mk taken) {t : State} {p : Prop}
    (h : taken t.fl ↔ p) (r : Fin 8) : JumpsTo (mk (regByte r)) t p (t.reg r) := by
  by_cases hp : p
  · obtain ⟨u, hexec, hpc, -⟩ := form.jumps t r (h.2 hp)
    exact ⟨u, hexec, fun _ => hpc, fun hn => absurd hp hn⟩
  · obtain ⟨u, hexec, hpc, -⟩ := form.fallsThrough t (regByte r) (fun ht => hp (h.1 ht))
    exact ⟨u, hexec, fun hp' => absurd hp' hp, fun _ => hpc⟩

/-- The three bits of `FL` after a comparison (R32, R124). -/
theorem compareFlags_bits (a b : Byte) :
    ((compareFlags a b).getLsbD 0 = true ↔ a.toNat = b.toNat) ∧
      ((compareFlags a b).getLsbD 1 = true ↔ b.toNat < a.toNat) ∧
      ((compareFlags a b).getLsbD 2 = true ↔ a.toNat < b.toNat) := by
  obtain ⟨h, hf⟩ | ⟨h, hf⟩ | ⟨h, hf⟩ := compareFlags_cases a b
  all_goals
    rw [hf]
    refine ⟨?_, ?_, ?_⟩ <;> simp <;> omega

/-- Settles O29: after the CMP each bit of `FL` says its relation, and each jump's condition is about those bits. -/
theorem cmpThenJumpTruthTable : Obligations.CmpThenJumpTruthTable := by
  intro s ra rb r
  obtain ⟨t, hcmp, hfl, hreg⟩ : ∃ t, exec (.cmp (regByte ra) (regByte rb)) s = .next t ∧
      t.fl = compareFlags (s.reg ra) (s.reg rb) ∧ t.reg r = s.reg r := ⟨_, binaryArm_cmp.exec_ok (alu_cmp _ _), rfl, rfl⟩
  obtain ⟨hE, hG, hL⟩ := compareFlags_bits (s.reg ra) (s.reg rb)
  rw [← hfl] at hE hG hL
  rw [← hreg]
  refine ⟨t, hcmp, jumpForm_jeq.jumpsTo hE r, jumpForm_jne.jumpsTo ?_ r, jumpForm_jgt.jumpsTo hG r,
    jumpForm_jlt.jumpsTo hL r, jumpForm_jle.jumpsTo ?_ r, jumpForm_jge.jumpsTo ?_ r⟩
  · exact Bool.eq_false_iff.trans (not_congr hE)
  · exact (or_congr hE hL).trans (by omega)
  · exact (or_congr hE hG).trans (by omega)

/-! ### CALL and RET -/

theorem returnAddress_eq (s : State) : returnAddress s = BitVec.ofNat 8 ((s.pc.toNat + 2) % 256) := by
  have h : (returnAddress s).toNat = (s.pc.toNat + 2) % 256 := by
    exact_mod_cast wrap8_natCast_toNat (s.pc.toNat + 2)
  apply BitVec.eq_of_toNat_eq
  rw [h, BitVec.toNat_ofNat]
  omega

/-- Settles O30: a push of the return address, then a transfer to the register as the push left it (decision D16). -/
theorem callPushesReturnAddress : Obligations.CallPushesReturnAddress := by
  refine ⟨fun s r hwf h => ?_, fun _ => rfl⟩
  obtain ⟨t, hpush, form, -⟩ := push_inside (returnAddress s) hwf h
  have form' : PushForm s (t.transfer 1 (t.reg r)) (returnAddress s) := form.setPc _
  rw [← returnAddress_eq]
  refine ⟨t.transfer 1 (t.reg r), ?_, form'.stored, form'.mem, form'.sp, form'.regs, ?_, form'.fl, form'.status⟩
  · rw [exec_eq_settle, pseudocode, callRegister_eq, hpush, Except.bind, regRead_regByte]
    rfl
  · rw [transfer_pc, zext9_toNat]
    split
    · next hr => exact hr ▸ form.sp
    · next hr => rw [form.regs r (by simpa using hr)]

/-- Settles O31: a pop, then a transfer to the popped byte; outside memory the pop raises. -/
theorem retPopsIntoPc : Obligations.RetPopsIntoPc := by
  refine ⟨fun s h => ?_, fun s h => ?_, rfl⟩
  · obtain ⟨v, hread, hpop⟩ := pop_inside h
    refine ⟨(s.setReg 7 (wrap8 (s.sp.toNat + 1))).transfer 0 v, v, ?_, hread, zext9_toNat v, setReg_sp_up s,
      regsSameBut_setReg s 7 _, fun _ => rfl, rfl, rfl, rfl, rfl⟩
    rw [exec_eq_settle, pseudocode, returnFromCall_eq, hpop]
    rfl
  · refine ⟨raise (.memOutOfBounds s.sp.toNat) s, ?_, rfl, rfl, rfl, rfl⟩
    rw [exec_eq_settle, pseudocode, returnFromCall_eq, pop_outside h]
    rfl

/-- Settles O32: below 254 the return address is exact, and O31 goes to the byte that O30 stored. -/
theorem callThenRetResumes : Obligations.CallThenRetResumes := by
  intro s r hwf h hpc hr
  obtain ⟨t, hcall, hstored, -, hsp, -, htarget, -⟩ := callPushesReturnAddress.1 s r hwf h
  refine ⟨t, hcall, by rw [htarget, if_neg hr], fun t' hsp' hcell => ?_⟩
  rw [hsp, hstored] at hcell
  have hcap : t'.sp.toNat < t'.mem.capacity := by
    rw [hsp', hsp]
    exact (memRead_ok_iff.1 hcell).1
  obtain ⟨u, v, hret, hread, hpc', hup, -⟩ := retPopsIntoPc.1 t' hcap
  rw [hsp', hsp] at hread hup
  refine ⟨u, hret, ?_, sp_eq_of_up hup⟩
  cases hcell.symm.trans hread
  rw [hpc', BitVec.toNat_ofNat]
  omega

end Sys2Proof.Machine
end

section
/-! SUPPORT. The engine's own instructions (spec/41_engine.md R148 to R152) and a core that is stopped (R36, R140). -/

namespace Sys2Proof.Machine

/-- Settles O33: NOP is the advance past its own byte. -/
theorem nopAdvancesOnly : Obligations.NopAdvancesOnly :=
  ⟨fun s => ⟨s.advance 0, rfl, rfl, fun _ _ => rfl, rfl, fun _ => rfl, rfl, rfl, rfl⟩, rfl⟩

theorem step_halted {s : State} (h : s.run = .halted) : step s = .fault .coreHalted := by
  simp only [step, h]

theorem step_faulted {s : State} (h : s.run = .faulted) : step s = .fault (.coreFaulted s.fault) := by
  simp only [step, h]

/-- Settles O34: HLT writes `run` alone, and `step` looks at `run` first. -/
theorem hltHalts : Obligations.HltHalts :=
  ⟨fun s => ⟨s.halt, rfl, rfl, rfl, fun _ _ => rfl, rfl, fun _ => rfl, rfl, rfl, step_halted rfl⟩, rfl⟩

/-- What the unrecognized arm leaves (R150). -/
theorem unrecognized_diagnoses (ir : Byte) (s : State) :
    (unrecognized ir s).out = s.out ++ [.diag ir] ∧ (unrecognized ir s).pc = s.pc + 1#9 ∧
      RegsSameBut s (unrecognized ir s) [] ∧ (unrecognized ir s).fl = s.fl ∧ MemSame s (unrecognized ir s) ∧
      (unrecognized ir s).run = s.run ∧ (unrecognized ir s).fault = s.fault :=
  ⟨rfl, rfl, fun _ _ => rfl, rfl, fun _ => rfl, rfl, rfl⟩

/-- Settles O35: each of the three is the unrecognized arm (decision D10). -/
theorem reservedOpcodesDiagnose : Obligations.ReservedOpcodesDiagnose := by
  refine ⟨fun s i ir h => ⟨unrecognized ir s, ?_, unrecognized_diagnoses ir s⟩, rfl, rfl, rfl⟩
  simp only [List.mem_cons, Prod.mk.injEq, List.not_mem_nil, or_false] at h
  obtain ⟨rfl, rfl⟩ | ⟨rfl, rfl⟩ | ⟨rfl, rfl⟩ := h <;> rfl

/-- Settles O36: the fetch gives the byte as it is, and its arm is the unrecognized one. -/
theorem unassignedByteDiagnosed : Obligations.UnassignedByteDiagnosed := by
  intro s b hrun hb hrow
  have hstep : step s = .next (unrecognized b s) := step_unassigned hrun (fetch_unassigned hb (ofByte?_eq_none_iff.2 hrow))
  have h := unrecognized_diagnoses b s
  rw [hrun] at h
  exact ⟨_, hstep, h⟩

/-- Settles O40: `step` looks at `run` before it fetches. -/
theorem stoppedCoreTakesNoStep : Obligations.StoppedCoreTakesNoStep := fun _ => ⟨step_halted, step_faulted⟩

/-- Settles O46: by the run state, and when FAULTED by the cause. -/
theorem exitStatusFollowsRun : Obligations.ExitStatusFollowsRun := by
  refine fun s => ⟨fun h => by simp only [State.exitStatus, h], fun h => by simp only [State.exitStatus, h],
    fun c h hc => ?_⟩
  simp only [State.exitStatus, h, hc]
  cases c <;> rfl

end Sys2Proof.Machine
end

section
/-! SUPPORT. What an instruction can do, said once: every way its pseudocode completes and every way it raises a fault.
The two relations speak of the unit (its opcode byte `ir` and its operand bytes `ops`), so that they cover the bytes of no
row as well. -/

namespace Sys2Proof.Machine

/-- `t` is a state in which the unit `ir`, `ops` can complete from `s`: one constructor per kind of effect. -/
inductive Completes (ir : Byte) (ops : List Byte) (s : State) : State → Prop
  | writeReg (r : Fin 8) (v : Byte) (cls : (decodeOpcode ir).1 = .ldi ∨ (decodeOpcode ir).1 = .alu ∧ ir ≠ 0xA7#8)
      (opA : ops.head? = some (regByte r)) : Completes ir ops s ((s.setReg r v).advance (decodeOpcode ir).2)
  | compare (a b : Byte) (op : ir = 0xA7#8) :
      Completes ir ops s ((s.setFl (compareFlags a b)).advance (decodeOpcode ir).2)
  | emit (e : OutputEvent) (cls : (decodeOpcode ir).1 = .print ∨ (decodeOpcode ir).1 = .unrecognized) :
      Completes ir ops s ((s.emit e).advance (decodeOpcode ir).2)
  | pass (cls : (decodeOpcode ir).1 = .nop ∨ (decodeOpcode ir).1 = .jump) :
      Completes ir ops s (s.advance (decodeOpcode ir).2)
  | jump (v : Byte) (cls : (decodeOpcode ir).1 = .jump) : Completes ir ops s (s.transfer 1 v)
  | push (m : Memory) (v w : Byte) (op : ir = 0x45#8) (store : memWrite s.mem (pushAddr s) v = .ok m) :
      Completes ir ops s (((s.setMem m).setReg 7 w).advance (decodeOpcode ir).2)
  | call (m : Memory) (v w u : Byte) (op : ir = 0x50#8) (store : memWrite s.mem (pushAddr s) v = .ok m) :
      Completes ir ops s (((s.setMem m).setReg 7 w).transfer 1 u)
  | pop (r : Fin 8) (v w : Byte) (op : ir = 0x46#8) (opA : ops.head? = some (regByte r)) :
      Completes ir ops s (((s.setReg 7 w).setReg r v).advance (decodeOpcode ir).2)
  | ret (w u : Byte) (op : ir = 0x11#8) : Completes ir ops s ((s.setReg 7 w).transfer 0 u)
  | halt (op : ir = 0x01#8) : Completes ir ops s s.halt

/-- `c` is a fault that the unit `ir`, `ops` can raise in `s` after its fetch (R211). -/
inductive Faults (ir : Byte) (ops : List Byte) (s : State) : FaultCause → Prop
  | indexA (a : Byte) (opA : ops.head? = some a) (h : 8 ≤ a.toNat) : Faults ir ops s (.regOutOfBounds a)
  | indexB (a b : Byte) (cls : (decodeOpcode ir).1 = .alu) (opB : ops = [a, b]) (h : 8 ≤ b.toNat) :
      Faults ir ops s (.regOutOfBounds b)
  | divide (op : ir = 0xA3#8 ∨ ir = 0xA4#8) : Faults ir ops s (.divideByZero ir)
  | push (op : ir = 0x45#8 ∨ ir = 0x50#8) (h : s.mem.capacity ≤ pushAddr s) :
      Faults ir ops s (.memOutOfBounds (pushAddr s))
  | pop (op : ir = 0x46#8 ∨ ir = 0x11#8) (h : s.mem.capacity ≤ s.sp.toNat) :
      Faults ir ops s (.memOutOfBounds s.sp.toNat)

/-- Both relations, of the outcome of a pseudocode. -/
def Settles (ir : Byte) (ops : List Byte) (s : State) : Except FaultCause State → Prop
  | .ok t => Completes ir ops s t
  | .error c => Faults ir ops s c

/-! ### The alu block -/

/-- Every select but the compare writes a value back and no flags (R110). -/
theorem alu_ok_value {op a b : Byte} {out : AluOut} (hop : op ≠ 0xA7#8) (h : alu op a b = .ok out) :
    ∃ v, out = .value v := by
  have hop' : op.toNat ≠ 0xA7 := fun e => hop (BitVec.eq_of_toNat_eq e)
  unfold alu at h
  split at h
  case h_14 e => exact absurd e hop'
  case h_16 => cases h
  case h_4 | h_5 =>
    split at h
    · cases h
    · exact ⟨_, (Except.ok.inj h).symm⟩
  all_goals exact ⟨_, (Except.ok.inj h).symm⟩

theorem code_mem_aluSelects {o : Opcode} (h : o.cls = .alu) : o.code ∈ aluSelects := by
  revert h
  cases o <;> decide

/-! ### Each arm

By its equations on a register and on an index of 8 or more. -/

section
variable {i : Instr} {a b : Byte} (s : State)

theorem aluBinary_settles (cls : i.opcode.cls = .alu) (ops : i.operandBytes = [a, b]) :
    Settles i.opcode.code i.operandBytes s (aluBinary i.opcode.code a b s) := by
  have hn : (decodeOpcode i.opcode.code).2 = 2 := by simp [← operandBytes_length, ops]
  have hcls : (decodeOpcode i.opcode.code).1 = .alu := by simp [cls]
  obtain ⟨ra, rfl⟩ | ha := regByte_or_ge a
  swap
  · rw [aluBinary_geA _ _ _ ha]
    exact .indexA a (by simp [ops]) ha
  obtain ⟨rb, rfl⟩ | hb := regByte_or_ge b
  swap
  · rw [aluBinary_geB _ _ _ hb]
    exact .indexB _ b hcls ops hb
  rw [aluBinary_regByte]
  cases hout : alu i.opcode.code (s.reg ra) (s.reg rb) with
  | error c =>
    obtain ⟨rfl, hop⟩ := alu_error (code_mem_aluSelects cls) hout
    exact .divide hop
  | ok out =>
    by_cases hop : i.opcode.code = 0xA7#8
    · rw [hop, alu_cmp] at hout
      cases hout
      exact hn ▸ .compare _ _ hop
    · obtain ⟨v, rfl⟩ := alu_ok_value hop hout
      exact hn ▸ .writeReg ra v (.inr ⟨hcls, hop⟩) (by simp [ops])

theorem aluUnary_settles (cls : i.opcode.cls = .alu) (ops : i.operandBytes = [a]) :
    Settles i.opcode.code i.operandBytes s (aluUnary i.opcode.code a s) := by
  have hn : (decodeOpcode i.opcode.code).2 = 1 := by simp [← operandBytes_length, ops]
  have hop : i.opcode.code ≠ 0xA7#8 := by
    intro e
    rw [e] at hn
    exact absurd hn (by decide)
  obtain ⟨ra, rfl⟩ | ha := regByte_or_ge a
  · rw [aluUnary_regByte]
    cases hout : alu i.opcode.code (s.reg ra) 0#8 with
    | error c =>
      obtain ⟨rfl, hop⟩ := alu_error (code_mem_aluSelects cls) hout
      exact .divide hop
    | ok out =>
      obtain ⟨v, rfl⟩ := alu_ok_value hop hout
      exact hn ▸ .writeReg ra v (.inr ⟨by simp [cls], hop⟩) (by simp [ops])
  · rw [aluUnary_ge _ _ ha]
    exact .indexA a (by simp [ops]) ha

theorem jump_settles (cls : i.opcode.cls = .jump) (ops : i.operandBytes = [a]) :
    Settles i.opcode.code i.operandBytes s (jump i.opcode.code a s) := by
  have hn : (decodeOpcode i.opcode.code).2 = 1 := by simp [← operandBytes_length, ops]
  have hcls : (decodeOpcode i.opcode.code).1 = .jump := by simp [cls]
  cases hcond : cond i.opcode.code s.fl with
  | false =>
    rw [jump_notTaken hcond]
    exact hn ▸ .pass (.inr hcls)
  | true =>
    obtain ⟨r, rfl⟩ | ha := regByte_or_ge a
    · rw [jump_taken hcond]
      exact .jump _ hcls
    · rw [jump_taken_ge hcond ha]
      exact .indexA a (by simp [ops]) ha

theorem printRegister_settles (e : Byte → OutputEvent) (cls : i.opcode.cls = .print) (ops : i.operandBytes = [a]) :
    Settles i.opcode.code i.operandBytes s (printRegister e a s) := by
  have hn : (decodeOpcode i.opcode.code).2 = 1 := by simp [← operandBytes_length, ops]
  obtain ⟨r, rfl⟩ | ha := regByte_or_ge a
  · rw [printRegister_regByte]
    exact hn ▸ .emit _ (.inl (by simp [cls]))
  · rw [printRegister_ge _ _ ha]
    exact .indexA a (by simp [ops]) ha

theorem loadImmediate_settles (a imm : Byte) : Settles 0x82#8 [a, imm] s (loadImmediate a imm s) := by
  obtain ⟨r, rfl⟩ | ha := regByte_or_ge a
  · rw [loadImmediate_regByte]
    exact .writeReg r imm (.inl rfl) rfl
  · rw [loadImmediate_ge _ _ ha]
    exact .indexA a rfl ha

theorem pushRegister_settles (a : Byte) : Settles 0x45#8 [a] s (pushRegister a s) := by
  obtain ⟨r, rfl⟩ | ha := regByte_or_ge a
  · rw [pushRegister_regByte]
    obtain ⟨hc, hpush⟩ | ⟨m, hm, hpush⟩ := push_cases (s.reg r) s <;> rw [hpush]
    · exact .push (.inl rfl) hc
    · exact .push m _ _ rfl hm
  · rw [pushRegister_ge _ ha]
    exact .indexA a rfl ha

theorem popRegister_settles (a : Byte) : Settles 0x46#8 [a] s (popRegister a s) := by
  rw [popRegister_eq]
  obtain ⟨hc, hpop⟩ | ⟨v, -, hpop⟩ := pop_cases s <;> rw [hpop, Except.bind]
  · exact .pop (.inl rfl) hc
  obtain ⟨r, rfl⟩ | ha := regByte_or_ge a
  · rw [regWrite_regByte]
    exact .pop r v _ rfl rfl
  · rw [regWrite_ge _ _ ha]
    exact .indexA a rfl ha

theorem callRegister_settles (a : Byte) : Settles 0x50#8 [a] s (callRegister a s) := by
  rw [callRegister_eq]
  obtain ⟨hc, hpush⟩ | ⟨m, hm, hpush⟩ := push_cases (returnAddress s) s <;> rw [hpush, Except.bind]
  · exact .push (.inr rfl) hc
  obtain ⟨r, rfl⟩ | ha := regByte_or_ge a
  · rw [regRead_regByte]
    exact .call m _ _ _ rfl hm
  · rw [regRead_ge _ ha]
    exact .indexA a rfl ha

theorem returnFromCall_settles : Settles 0x11#8 [] s (returnFromCall s) := by
  rw [returnFromCall_eq]
  obtain ⟨hc, hpop⟩ | ⟨v, -, hpop⟩ := pop_cases s <;> rw [hpop]
  · exact .pop (.inr rfl) hc
  · exact .ret _ v rfl

end

/-- Everything an instruction can do. -/
theorem pseudocode_settles (i : Instr) (s : State) : Settles i.opcode.code i.operandBytes s (pseudocode i s) := by
  cases i with
  | nop => exact .pass (.inl rfl)
  | hlt => exact .halt rfl
  | iret | int | ld => exact .emit _ (.inr rfl)
  | ret => exact returnFromCall_settles s
  | call a => exact callRegister_settles s a
  | push a => exact pushRegister_settles s a
  | pop a => exact popRegister_settles s a
  | ldi a imm => exact loadImmediate_settles s a imm
  | prn | pra => exact printRegister_settles s _ rfl rfl
  | inc | dec | not => exact aluUnary_settles s rfl rfl
  | jmp | jeq | jne | jgt | jlt | jle | jge => exact jump_settles s rfl rfl
  | add | sub | mul | div | mod | and | or | xor | shl | shr | cmp | st => exact aluBinary_settles s rfl rfl

/-- An instruction that ends in a next state completed, or took a fault it can raise. -/
theorem exec_cases {i : Instr} {s t : State} (h : exec i s = .next t) :
    Completes i.opcode.code i.operandBytes s t ∨ ∃ c, Faults i.opcode.code i.operandBytes s c ∧ t = raise c s := by
  have hsettles := pseudocode_settles i s
  obtain hok | ⟨c, herr, rfl⟩ := exec_next h
  · rw [hok] at hsettles
    exact .inl hsettles
  · rw [herr] at hsettles
    exact .inr ⟨c, hsettles, rfl⟩

end Sys2Proof.Machine
end

section
/-! SUPPORT. What a unit that completes leaves, one lemma per field of the state. -/

namespace Sys2Proof.Machine

/-- The opcode of a class the decoder recognizes is in the table. -/
theorem code_of_cls {ir : Byte} (h : (decodeOpcode ir).1 ≠ .unrecognized) :
    ∃ o : Opcode, o.code = ir ∧ (decodeOpcode ir).1 = o.cls := by
  cases hir : Opcode.ofByte? ir with
  | none => exact absurd (congrArg Prod.fst (decodeOpcode_none hir)) h
  | some o =>
    obtain rfl := code_of_ofByte? hir
    exact ⟨o, rfl, by simp⟩

section
variable {ir : Byte} {ops : List Byte} {s t : State}

theorem Completes.fault_eq (h : Completes ir ops s t) : t.fault = s.fault := by cases h <;> rfl

/-- R36: only HLT changes `run`, and it leaves `pc` (decision D20). -/
theorem Completes.run_pc (h : Completes ir ops s t) :
    (t.run = .halted ∧ t.pc = s.pc) ∨
      (t.run = s.run ∧ (t.pc = s.pc + BitVec.ofNat 9 ((decodeOpcode ir).2 + 1) ∨
        (ir ∈ [0x11#8, 0x50#8] ∨ (decodeOpcode ir).1 = .jump) ∧ ∃ v, t.pc = zext9 v)) := by
  cases h with
  | halt => exact .inl ⟨rfl, rfl⟩
  | jump v cls => exact .inr ⟨rfl, .inr ⟨.inr cls, v, rfl⟩⟩
  | call m v w u op => exact .inr ⟨rfl, .inr ⟨.inl (by simp [op]), u, rfl⟩⟩
  | ret w u op => exact .inr ⟨rfl, .inr ⟨.inl (by simp [op]), u, rfl⟩⟩
  | _ => exact .inr ⟨rfl, .inl rfl⟩

/-- R33: a CMP that completes writes `FL`, and no other unit does. -/
theorem Completes.fl_cases (h : Completes ir ops s t) :
    (ir ≠ 0xA7#8 ∧ t.fl = s.fl) ∨ (ir = 0xA7#8 ∧ ∃ a b, t.fl = compareFlags a b) := by
  have notCmp {cls : OpClass} (hcls : (decodeOpcode ir).1 = cls) (hne : cls ≠ .alu) : ir ≠ 0xA7#8 :=
    fun e => hne (hcls.symm.trans (e ▸ rfl))
  cases h with
  | compare a b op => exact .inr ⟨op, a, b, rfl⟩
  | writeReg r v cls => exact .inl ⟨cls.elim (notCmp · nofun) And.right, rfl⟩
  | emit e cls | pass cls => exact .inl ⟨cls.elim (notCmp · nofun) (notCmp · nofun), rfl⟩
  | jump v cls => exact .inl ⟨notCmp cls nofun, rfl⟩
  | push _ _ _ op | call _ _ _ _ op | pop _ _ _ op | ret _ _ op | halt op => exact .inl ⟨op ▸ by decide, rfl⟩

/-- R52: only PUSH and CALL store. -/
theorem Completes.mem_cases (h : Completes ir ops s t) :
    t.mem = s.mem ∨ (ir = 0x45#8 ∨ ir = 0x50#8) ∧ ∃ v, memWrite s.mem (pushAddr s) v = .ok t.mem := by
  cases h with
  | push m v w op store => exact .inr ⟨.inl op, v, store⟩
  | call m v w u op store => exact .inr ⟨.inr op, v, store⟩
  | _ => exact .inl rfl

/-- R173: only a print and an unrecognized byte emit. -/
theorem Completes.out_cases (h : Completes ir ops s t) :
    t.out = s.out ∨
      ((decodeOpcode ir).1 = .print ∨ (decodeOpcode ir).1 = .unrecognized) ∧ ∃ e, t.out = s.out ++ [e] := by
  cases h with
  | emit e cls => exact .inr ⟨cls, e, rfl⟩
  | _ => exact .inl rfl

/-- R26: a register that changes is the stack pointer of a stack operation, or the one that operand A names. -/
theorem Completes.reg_cases (h : Completes ir ops s t) (r : Fin 8) :
    t.reg r = s.reg r ∨ (r = 7 ∧ ir ∈ [0x45#8, 0x46#8, 0x50#8, 0x11#8]) ∨
      (ops.head? = some (regByte r) ∧
        ((decodeOpcode ir).1 = .ldi ∨ (decodeOpcode ir).1 = .alu ∧ ir ≠ 0xA7#8 ∨ ir = 0x46#8)) := by
  have keeps {u : State} {q : Fin 8} (v : Byte) (hr : r ≠ q) : (u.setReg q v).reg r = u.reg r := setReg_reg_ne u v hr
  cases h with
  | writeReg q v cls opA =>
    by_cases hr : r = q
    · exact .inr (.inr ⟨hr ▸ opA, cls.imp_right .inl⟩)
    · exact .inl (keeps v hr)
  | pop q v w op opA =>
    by_cases hr : r = q
    · exact .inr (.inr ⟨hr ▸ opA, .inr (.inr op)⟩)
    by_cases h7 : r = 7
    · exact .inr (.inl ⟨h7, by simp [op]⟩)
    · exact .inl ((keeps v hr).trans (keeps w h7))
  | push m v w op | call m v w u op | ret w u op =>
    by_cases h7 : r = 7
    · exact .inr (.inl ⟨h7, by simp [op]⟩)
    · exact .inl (keeps w h7)
  | _ => exact .inl rfl

end

end Sys2Proof.Machine
end

section
/-! SUPPORT. Everything a step can do: its unit completes, or it raises a fault at the fetch or after it. -/

namespace Sys2Proof.Machine

/-- The bytes of the unit at `pc`: the opcode byte and the operand bytes that the decoder reports for it (R94). -/
structure UnitAtPc (s : State) (ir : Byte) (ops : List Byte) : Prop where
  bytes : BytesAtPc s (ir :: ops)
  length : ops.length = (decodeOpcode ir).2

section
variable {s : State} {ir : Byte} {ops : List Byte} (unit : UnitAtPc s ir ops)
include unit

theorem UnitAtPc.opcode : OpcodeAtPc s ir := unit.bytes 0 (Nat.zero_lt_succ _)

theorem UnitAtPc.operandA {a : Byte} (h : ops.head? = some a) :
    memRead s.mem (s.pc.toNat + 1) = .ok a ∧ 2 ≤ unitLength ir := by
  obtain ⟨rest, rfl⟩ := List.head?_eq_some_iff.1 h
  have hlen := unit.length
  refine ⟨unit.bytes 1 (by simp), ?_⟩
  simp only [List.length_cons] at hlen
  simp only [unitLength]
  omega

theorem UnitAtPc.operandB {a b : Byte} (h : ops = [a, b]) :
    memRead s.mem (s.pc.toNat + 2) = .ok b ∧ unitLength ir = 3 := by
  subst h
  refine ⟨unit.bytes 2 (by simp), ?_⟩
  rw [unitLength, ← unit.length]
  rfl

/-- Every byte of the unit is in memory. -/
theorem UnitAtPc.inside : s.pc.toNat + (decodeOpcode ir).2 < s.mem.capacity := by
  have hlast : (decodeOpcode ir).2 < (ir :: ops).length := by simp [unit.length]
  exact (memRead_ok_iff.1 (unit.bytes _ hlast)).1

end

/-- The faults of the fetch (R141, R142): the first byte of the unit that is not in memory. -/
inductive FetchFaults (s : State) : FaultCause → Prop
  | opcode (h : s.mem.capacity ≤ s.pc.toNat) : FetchFaults s (.memOutOfBounds s.pc.toNat)
  | operandA (ir : Byte) (op : OpcodeAtPc s ir) (len : 2 ≤ unitLength ir) (h : s.mem.capacity ≤ s.pc.toNat + 1) :
      FetchFaults s (.memOutOfBounds (s.pc.toNat + 1))
  | operandB (ir : Byte) (op : OpcodeAtPc s ir) (len : unitLength ir = 3) (hA : s.pc.toNat + 1 < s.mem.capacity)
      (h : s.mem.capacity ≤ s.pc.toNat + 2) : FetchFaults s (.memOutOfBounds (s.pc.toNat + 2))

/-- What a fetch gives stands in memory at `pc`. -/
theorem fetch_sound (s : State) :
    (∃ c, fetch s = .error c ∧ FetchFaults s c) ∨
      (∃ ir, fetch s = .ok (.unassigned ir) ∧ Opcode.ofByte? ir = none ∧ UnitAtPc s ir []) ∨
      (∃ i, fetch s = .ok (.instr i) ∧ UnitAtPc s i.opcode.code i.operandBytes) := by
  obtain ⟨h, hf⟩ | ⟨ir, hir, hnone, hf⟩ | ⟨o, ho, ⟨hn, h, hf⟩ | ⟨hn, hA, h, hf⟩ | ⟨a, b, hA, hB, hf⟩⟩ := fetch_cases s
  · exact .inl ⟨_, hf, .opcode h⟩
  · refine .inr (.inl ⟨ir, hf, hnone, fun k hk => ?_, by rw [decodeOpcode_none hnone]; rfl⟩)
    obtain rfl : k = 0 := by simpa using hk
    exact hir
  · exact .inl ⟨_, hf, .operandA o.code ho (by rw [unitLength_code]; omega) h⟩
  · exact .inl ⟨_, hf, .operandB o.code ho (by rw [unitLength_code]; omega) hA h⟩
  · refine .inr (.inr ⟨o.build a b, hf, ?_, by simp [operandBytes_length, build_opcode]⟩)
    have hle := operands_le o
    rw [build_opcode, build_operandBytes]
    rintro (_ | _ | _ | k) hk <;> simp at hk
    · exact ho
    · simpa using hA (by omega)
    · simpa using hB (by omega)

/-- The unit at `pc` completes. -/
def StepCompletes (s t : State) : Prop := ∃ ir ops, UnitAtPc s ir ops ∧ Completes ir ops s t

/-- The fetch at `pc`, or the unit there, raises `c`. -/
def StepFaults (s : State) (c : FaultCause) : Prop :=
  FetchFaults s c ∨ ∃ ir ops, UnitAtPc s ir ops ∧ Faults ir ops s c

theorem unrecognized_completes {ir : Byte} (h : Opcode.ofByte? ir = none) (s : State) :
    Completes ir [] s (unrecognized ir s) := by
  have hdec := decodeOpcode_none h
  have hcompletes := Completes.emit (ops := []) (s := s) (.diag ir) (.inr (congrArg Prod.fst hdec))
  rwa [hdec] at hcompletes

/-- Everything a step can do. -/
theorem step_cases {s t : State} (h : step s = .next t) :
    s.run = .running ∧ (StepCompletes s t ∨ ∃ c, StepFaults s c ∧ t = raise c s) := by
  have hrun := running_of_step h
  refine ⟨hrun, ?_⟩
  obtain ⟨c, hf, hc⟩ | ⟨ir, hf, hnone, unit⟩ | ⟨i, hf, unit⟩ := fetch_sound s
  · rw [step_fetchError hrun hf] at h
    exact .inr ⟨c, .inl hc, (Host.Outcome.next.inj h).symm⟩
  · rw [step_unassigned hrun hf] at h
    obtain rfl : unrecognized ir s = t := Host.Outcome.next.inj h
    exact .inl ⟨ir, [], unit, unrecognized_completes hnone s⟩
  · rw [step_instr hrun hf] at h
    obtain hok | ⟨c, hc, ht⟩ := exec_cases h
    · exact .inl ⟨_, _, unit, hok⟩
    · exact .inr ⟨c, .inr ⟨_, _, unit, hc⟩, ht⟩

end Sys2Proof.Machine
end

section
/-! SUPPORT. The fetch (spec/41_engine.md R140 to R143) and what a RUNNING core answers. -/

namespace Sys2Proof.Machine

/-! ### A unit that is all in memory -/

/-- The instruction whose bytes stand at `pc` is the one that is fetched; no byte past them is read. -/
theorem fetch_of_bytes {s : State} {i : Instr} (h : BytesAtPc s (encode i)) : fetch s = .ok (.instr i) := by
  have hop : memRead s.mem s.pc.toNat = .ok i.opcode.code := h 0 (Nat.zero_lt_succ _)
  rw [fetch_opcode hop, ← operandBytes_length]
  match hops : i.operandBytes with
  | [] =>
    rw [List.length_nil, fetchOperands_zero, Except.map, (build_operands i 0#8 0#8).1 hops]
  | [a] =>
    have hA : memRead s.mem (s.pc.toNat + 1) = .ok a := by simpa [encode, hops] using h 1 (by simp [encode, hops])
    rw [List.length_singleton, fetchOperands_one, hA, Except.map, Except.map, (build_operands i a 0#8).2.1 hops]
  | [a, b] =>
    have hA : memRead s.mem (s.pc.toNat + 1) = .ok a := by simpa [encode, hops] using h 1 (by simp [encode, hops])
    have hB : memRead s.mem (s.pc.toNat + 2) = .ok b := by simpa [encode, hops] using h 2 (by simp [encode, hops])
    rw [List.length_cons, List.length_singleton, fetchOperands_two, hA, hB, Except.bind, Except.map, Except.map,
      (build_operands i a b).2.2 hops]
  | _ :: _ :: _ :: _ =>
    have hle := operands_le i.opcode
    rw [← operandBytes_length, hops] at hle
    simp at hle

/-- Settles O37: the fetch gives the instruction, and its arm is `exec`. -/
theorem stepRunsDecodedInstruction : Obligations.StepRunsDecodedInstruction :=
  fun _ _ hrun h => step_instr hrun (fetch_of_bytes h)

/-- Settles O41: whatever the fetch gives, the step settles it. -/
theorem runningStepHasNextState : Obligations.RunningStepHasNextState := by
  intro s hrun
  obtain ⟨c, hf, -⟩ | ⟨ir, hf, -⟩ | ⟨i, hf, -⟩ := fetch_sound s
  · exact ⟨_, step_fetchError hrun hf⟩
  · exact ⟨_, step_unassigned hrun hf⟩
  · rw [step_instr hrun hf, exec_eq_settle]
    exact settle_isNext s _

/-! ### Faults -/

theorem voidWith_raise (s : State) (c : FaultCause) : VoidWith s (raise c s) c :=
  ⟨fun _ _ => rfl, rfl, rfl, fun _ => rfl, rfl, rfl, rfl⟩

theorem Completes.run_ne_faulted {ir : Byte} {ops : List Byte} {s t : State} (hrun : s.run = .running)
    (h : Completes ir ops s t) : t.run ≠ .faulted := by
  obtain ⟨ht, -⟩ | ⟨ht, -⟩ := h.run_pc <;> simp [ht, hrun]

/-- A step that ends FAULTED took a fault that its fetch or its unit can raise. -/
theorem step_faulted_cases {s t : State} (h : step s = .next t) (ht : t.run = .faulted) :
    ∃ c, StepFaults s c ∧ t = raise c s := by
  obtain ⟨hrun, ⟨ir, ops, -, hok⟩ | hfault⟩ := step_cases h
  · exact absurd ht (hok.run_ne_faulted hrun)
  · exact hfault

/-- Settles O42: a fault is taken by `raise`, from the state before the instruction. -/
theorem faultingStepIsVoid : Obligations.FaultingStepIsVoid := by
  refine ⟨fun s t h ht => ?_, fun i s t hrun h ht => ?_⟩
  · obtain ⟨c, -, rfl⟩ := step_faulted_cases h ht
    exact ⟨c, voidWith_raise s c⟩
  · obtain hok | ⟨c, -, rfl⟩ := exec_cases h
    · exact absurd ht (hok.run_ne_faulted hrun)
    · exact ⟨c, voidWith_raise s c⟩

/-- Settles O43: the constructors of `FetchFaults` and `Faults`, read at the bytes of the unit. -/
theorem faultCausesByStep : Obligations.FaultCausesByStep := by
  intro s t c hstep ht hc
  obtain ⟨c', hfault, rfl⟩ := step_faulted_cases hstep ht
  obtain rfl : c' = c := Option.some.inj hc
  obtain hfetch | ⟨ir, ops, unit, hunit⟩ := hfault
  · cases hfetch with
    | opcode h => exact ⟨h, .inl rfl⟩
    | operandA ir op len h => exact ⟨h, .inr ⟨ir, op, .inl ⟨rfl, len⟩⟩⟩
    | operandB ir op len _ h => exact ⟨h, .inr ⟨ir, op, .inr (.inl ⟨rfl, len⟩)⟩⟩
  · cases hunit with
    | indexA a opA h => exact ⟨h, ir, unit.opcode, .inl (unit.operandA opA)⟩
    | indexB a b cls opB h =>
      obtain ⟨hread, hlen⟩ := unit.operandB opB
      exact ⟨h, ir, unit.opcode, .inr ⟨hread, cls, hlen⟩⟩
    | divide op => exact ⟨unit.opcode, op⟩
    | push op h => exact ⟨h, .inr ⟨ir, unit.opcode, .inr (.inr (.inl ⟨rfl, op⟩))⟩⟩
    | pop op h => exact ⟨h, .inr ⟨ir, unit.opcode, .inr (.inr (.inr ⟨rfl, op⟩))⟩⟩

/-- Settles O38: outside memory the fetch raises; and a MemOutOfBounds is always of an address outside memory (O43). -/
theorem opcodeFetchFault : Obligations.OpcodeFetchFault := by
  have outside {s : State} (hrun : s.run = .running) (h : s.mem.capacity ≤ s.pc.toNat) :
      step s = .next (raise (.memOutOfBounds s.pc.toNat) s) := step_fetchError hrun (fetch_outside h)
  refine ⟨fun s hrun h => ⟨_, outside hrun h, rfl, rfl, fun _ => rfl⟩, fun s hrun hpc hcap => ⟨?_, fun h => ?_⟩⟩
  · rintro ⟨t, hstep, ht, hc⟩
    have hge : s.mem.capacity ≤ s.pc.toNat := (faultCausesByStep s t _ hstep ht hc).1
    omega
  · exact ⟨_, outside hrun (by omega), rfl, rfl⟩

/-- A unit with operand bytes starts with a code of the table. -/
theorem code_of_unitLength {ir : Byte} (h : 2 ≤ unitLength ir) :
    ∃ o : Opcode, o.code = ir ∧ unitLength ir = o.operands + 1 := by
  cases hir : Opcode.ofByte? ir with
  | none =>
    rw [unitLength_unassigned hir] at h
    omega
  | some o =>
    obtain rfl := code_of_ofByte? hir
    exact ⟨o, rfl, unitLength_code o⟩

theorem fetch_operandA_outside {s : State} {ir : Byte} (op : OpcodeAtPc s ir) (len : 2 ≤ unitLength ir)
    (h : s.mem.capacity ≤ s.pc.toNat + 1) : fetch s = .error (.memOutOfBounds (s.pc.toNat + 1)) := by
  obtain ⟨o, rfl, hlen⟩ := code_of_unitLength len
  have hA : memRead s.mem (s.pc.toNat + 1) = .error (.memOutOfBounds (s.pc.toNat + 1)) := memRead_error_iff.2 ⟨h, rfl⟩
  have hle := operands_le o
  obtain hn | hn : o.operands = 1 ∨ o.operands = 2 := by omega
  · rw [fetch_opcode op, hn, fetchOperands_one, hA, Except.map, Except.map]
  · rw [fetch_opcode op, hn, fetchOperands_two, hA, Except.bind, Except.map]

theorem fetch_operandB_outside {s : State} {ir : Byte} (op : OpcodeAtPc s ir) (len : unitLength ir = 3)
    (hA : s.pc.toNat + 1 < s.mem.capacity) (hB : s.mem.capacity ≤ s.pc.toNat + 2) :
    fetch s = .error (.memOutOfBounds (s.pc.toNat + 2)) := by
  obtain ⟨o, rfl, hlen⟩ := code_of_unitLength (ir := ir) (by omega)
  have hn : o.operands = 2 := by omega
  have hreadA : memRead s.mem (s.pc.toNat + 1) = .ok _ := memRead_ok_iff.2 ⟨hA, rfl⟩
  have hreadB : memRead s.mem (s.pc.toNat + 2) = .error (.memOutOfBounds (s.pc.toNat + 2)) :=
    memRead_error_iff.2 ⟨hB, rfl⟩
  rw [fetch_opcode op, hn, fetchOperands_two, hreadA, hreadB, Except.bind, Except.map, Except.map]

/-- Settles O39: the fetch raises, before any instruction is known. -/
theorem operandFetchFault : Obligations.OperandFetchFault :=
  ⟨fun s _ hrun op len h => ⟨_, step_fetchError hrun (fetch_operandA_outside op len h), voidWith_raise s _⟩,
    fun s _ hrun op len hA hB => ⟨_, step_fetchError hrun (fetch_operandB_outside op len hA hB), voidWith_raise s _⟩⟩

theorem wellFormed_operandA {i : Instr} {a : Byte} (h : i.wellFormed = true) (opA : i.operandBytes.head? = some a) :
    a.toNat < 8 := by
  cases i <;> simp_all [Instr.wellFormed, Instr.operandBytes, regIndexOk]

/-- The second byte of a unit is a register index for the ALU only; LDI's is a literal. -/
theorem wellFormed_operandB {i : Instr} {a b : Byte} (h : i.wellFormed = true) (cls : i.opcode.cls = .alu)
    (opB : i.operandBytes = [a, b]) : b.toNat < 8 := by
  cases i <;> simp_all [Instr.wellFormed, Instr.operandBytes, Instr.opcode, Opcode.cls, regIndexOk]

/-- Settles O45: an index fault is of a register operand, and those of a well-formed instruction are below 8. -/
theorem wellFormedRaisesNoIndexFault : Obligations.WellFormedRaisesNoIndexFault := by
  intro i s t x hwf hfault hexec hx
  obtain hok | ⟨c, hc, rfl⟩ := exec_cases hexec
  · rw [hok.fault_eq, hfault] at hx
    cases hx
  · obtain rfl : c = .regOutOfBounds x := Option.some.inj hx
    cases hc with
    | indexA _ opA hge => exact (wellFormed_operandA hwf opA).not_ge hge
    | indexB a _ cls opB hge => exact (wellFormed_operandB hwf (by simpa using cls) opB).not_ge hge

end Sys2Proof.Machine
end

section
/-! SUPPORT. Reset and launch (spec/70_reset_and_hazards.md R240 to R242). -/

namespace Sys2Proof.Machine

theorem memRead_empty {capacity addr : Nat} (h : addr < capacity) : memRead (Memory.empty capacity) addr = .ok 0x00#8 :=
  memRead_ok_iff.2 ⟨h, rfl⟩

/-- Settles O47: every field but the memory is a constant of reset. -/
theorem resetLeaves : Obligations.ResetLeaves := by
  refine ⟨fun s => ⟨fun r hr => ?_, rfl, rfl, rfl, rfl, rfl, rfl, rfl⟩, fun s h => ?_, rfl, fun _ => memRead_empty⟩
  · have hzero : ∀ r : Fin 8, r ≠ 7 → State.reset.reg r = 0x00#8 := by decide
    exact hzero r hr
  · rw [assertReset, h]

/-- Settles O48: the image is placed in a memory that has nothing written. -/
theorem bootLoadsImage : Obligations.BootLoadsImage := by
  refine ⟨fun capacity image h1 h256 hlen => ?_, fun capacity image h => if_neg ?_⟩
  · have hfits : 0 + image.length ≤ (Memory.empty capacity).capacity := by rwa [Nat.zero_add]
    obtain ⟨hwf, hcap, hin, hout⟩ := placeBytes_spec (Memory.empty_wf h1 h256) hfits
    refine ⟨_, if_pos ⟨h1, h256, hlen⟩, hcap, hwf, rfl, fun k hk => ?_, fun k hge hlt => ?_⟩
    · simpa using hin k hk
    · exact (hout k (.inr (by omega))).trans (memRead_empty hlt)
  · have hmax : Config.maxCapacity = 256 := rfl
    omega

end Sys2Proof.Machine
end

section
/-! SUPPORT. The invariant (R29, R32, R37, R51, R210): it holds at reset and every step keeps it. -/

namespace Sys2Proof.Machine

/-- Settles O49: nothing is written and nothing was raised yet. -/
theorem resetMeetsInvariant : Obligations.ResetMeetsInvariant where
  memory := Memory.empty_wf (by decide) (by decide)
  pcRange := by decide
  flags := .inl rfl
  record := by decide
  recordLegal _ h := by cases h

/-- Past a unit that is in memory, `pc` does not wrap. -/
theorem pc_add_toNat {pc : PcWord} {n : Nat} (h : pc.toNat + n < 512) : (pc + BitVec.ofNat 9 n).toNat = pc.toNat + n := by
  rw [BitVec.toNat_add, BitVec.toNat_ofNat]
  omega

theorem State.Inv.capacity_le {s : State} (hinv : s.Inv) : s.mem.capacity ≤ 256 :=
  ((Memory.wf_iff _).1 hinv.memory).2.1

theorem compareFlags_mem (a b : Byte) :
    compareFlags a b = 0b00000001#8 ∨ compareFlags a b = 0b00000010#8 ∨ compareFlags a b = 0b00000100#8 := by
  obtain ⟨-, h⟩ | ⟨-, h⟩ | ⟨-, h⟩ := compareFlags_cases a b <;> simp [h]

/-- R31, for a step whose unit completes. -/
theorem StepCompletes.pc_cases {s t : State} (hinv : s.Inv) (hrun : s.run = .running) (h : StepCompletes s t) :
    (t.run = .halted ∧ t.pc = s.pc) ∨
      (t.run = .running ∧ ∃ ir, OpcodeAtPc s ir ∧
        ((t.pc.toNat = s.pc.toNat + unitLength ir ∧ t.pc.toNat ≤ 256) ∨
          (ir ∈ [0x11#8, 0x50#8] ∨ (decodeOpcode ir).1 = .jump) ∧ t.pc.toNat ≤ 255)) := by
  obtain ⟨ir, ops, unit, hunit⟩ := h
  obtain hhalt | ⟨ht, hpc⟩ := hunit.run_pc
  · exact .inl hhalt
  refine .inr ⟨ht.trans hrun, ir, unit.opcode, ?_⟩
  obtain hpc | ⟨hop, v, hpc⟩ := hpc
  · have hin := unit.inside
    have hcap := hinv.capacity_le
    rw [hpc, pc_add_toNat (by omega), unitLength]
    omega
  · have hv := v.isLt
    rw [hpc, zext9_toNat]
    exact .inr ⟨hop, by omega⟩

/-- A RUNNING core has no record, and a unit that completes writes none. -/
theorem StepCompletes.inv {s t : State} (hinv : s.Inv) (hrun : s.run = .running) (h : StepCompletes s t) : t.Inv := by
  have hpc := h.pc_cases hinv hrun
  obtain ⟨ir, ops, unit, hunit⟩ := h
  have hnone : t.fault = none := by
    rw [hunit.fault_eq]
    by_contra hsome
    have := hinv.record.2 hsome
    simp [hrun] at this
  refine ⟨?memory, ?pcRange, ?flags, ?record, ?recordLegal⟩
  case memory =>
    obtain hmem | ⟨-, v, hstore⟩ := hunit.mem_cases
    · exact hmem ▸ hinv.memory
    · obtain ⟨-, -, -, hwrite⟩ := memWrite_ok hstore
      exact (hwrite hinv.memory).2
  case pcRange =>
    obtain ⟨-, hpc⟩ | ⟨-, -, -, ⟨-, hpc⟩ | ⟨-, hpc⟩⟩ := hpc
    · exact hpc ▸ hinv.pcRange
    · exact hpc
    · omega
  case flags =>
    obtain ⟨-, hfl⟩ | ⟨-, a, b, hfl⟩ := hunit.fl_cases
    · exact hfl ▸ hinv.flags
    · exact hfl ▸ .inr (compareFlags_mem a b)
  case record => exact iff_of_false (hunit.run_ne_faulted hrun) (not_not.2 hnone)
  case recordLegal =>
    intro c hc
    rw [hnone] at hc
    cases hc

/-- R210, R93: the records a step can write. -/
theorem StepFaults.legal {s : State} {c : FaultCause} (hinv : s.Inv) (h : StepFaults s c) : c.legal s.mem.capacity := by
  have hcap := hinv.capacity_le
  have hsp := s.sp.isLt
  have hpush := pushAddr_lt s
  obtain hfetch | ⟨ir, ops, -, hunit⟩ := h
  · cases hfetch with
    | opcode hge => exact ⟨hge, hinv.pcRange⟩
    | operandA ir op _ hge =>
      have := (memRead_ok_iff.1 op).1
      exact ⟨hge, by omega⟩
    | operandB ir _ _ hA hge => exact ⟨hge, by omega⟩
  · cases hunit with
    | indexA _ _ hge => exact hge
    | indexB _ _ _ _ hge => exact hge
    | divide op => exact op
    | push _ hge => exact ⟨hge, hpush.le⟩
    | pop _ hge => exact ⟨hge, hsp.le⟩

theorem StepFaults.inv {s : State} {c : FaultCause} (hinv : s.Inv) (h : StepFaults s c) : (raise c s).Inv where
  memory := hinv.memory
  pcRange := hinv.pcRange
  flags := hinv.flags
  record := iff_of_true rfl nofun
  recordLegal c' hc := by
    obtain rfl : c = c' := Option.some.inj hc
    exact (h.legal hinv :)

/-- Settles O50: a unit that completes keeps the invariant, and so does taking a fault. -/
theorem stepKeepsInvariant : Obligations.StepKeepsInvariant := by
  intro s t hinv hstep
  obtain ⟨hrun, hok | ⟨c, hfault, rfl⟩⟩ := step_cases hstep
  · exact hok.inv hinv hrun
  · exact hfault.inv hinv

/-- R31, the bytes of the jump class (R86). -/
theorem mem_jump_bytes {ir : Byte} (h : (decodeOpcode ir).1 = .jump) :
    ir ∈ [0x54#8, 0x55#8, 0x56#8, 0x57#8, 0x58#8, 0x59#8, 0x5A#8] := by
  obtain ⟨o, rfl, ho⟩ := code_of_cls (ir := ir) (by simp [h])
  rw [ho] at h
  revert h
  cases o <;> decide

/-- Settles O56: `StepCompletes.pc_cases`, and a fault leaves `pc`. -/
theorem pcFollowsUnitLength : Obligations.PcFollowsUnitLength := by
  intro s t hinv hstep
  obtain ⟨hrun, hok | ⟨c, -, rfl⟩⟩ := step_cases hstep
  · obtain ⟨ht, hpc⟩ | ⟨ht, ir, hop, hpc⟩ := hok.pc_cases hinv hrun
    · exact ⟨fun _ => hpc, fun hrunning => by simp [ht] at hrunning⟩
    · refine ⟨fun hne => absurd ht hne, fun _ => ⟨ir, hop, ?_⟩⟩
      obtain ⟨hpc, -⟩ | ⟨hir | hjump, hpc⟩ := hpc
      · exact .inl hpc
      · exact .inr ⟨List.mem_append_left [0x54#8, 0x55#8, 0x56#8, 0x57#8, 0x58#8, 0x59#8, 0x5A#8] hir, hpc⟩
      · exact .inr ⟨List.mem_append_right [0x11#8, 0x50#8] (mem_jump_bytes hjump), hpc⟩
  · exact ⟨fun _ => rfl, nofun⟩

end Sys2Proof.Machine
end

section
/-! SUPPORT. The whole-machine frames (R26, R33, R52, R173, R185): what only some steps change. -/

namespace Sys2Proof.Machine

/-- There is one opcode byte at `pc`. -/
theorem OpcodeAtPc.unique {s : State} {ir ir' : Byte} (h : OpcodeAtPc s ir) (h' : OpcodeAtPc s ir') : ir = ir' :=
  Except.ok.inj (h.symm.trans h')

/-- Settles O51: `FL` by `Completes.fl_cases`, at the one opcode byte that stands at `pc`. -/
theorem onlyCmpWritesFlags : Obligations.OnlyCmpWritesFlags := by
  intro s t hstep
  obtain ⟨hrun, ⟨ir, ops, unit, hunit⟩ | ⟨c, -, rfl⟩⟩ := step_cases hstep
  · obtain ⟨hne, hfl⟩ | ⟨rfl, a, b, hfl⟩ := hunit.fl_cases
    · exact ⟨fun _ => hfl, fun hcmp => absurd (unit.opcode.unique hcmp) hne⟩
    · exact ⟨fun hncmp => absurd unit.opcode hncmp, fun _ _ => hfl ▸ compareFlags_mem a b⟩
  · exact ⟨fun _ => rfl, fun _ => nofun⟩

/-- Settles O53: a step that changes memory is one `memWrite` at `pushAddr`. -/
theorem onlyPushAndCallStore : Obligations.OnlyPushAndCallStore := by
  intro s t hstep
  obtain ⟨-, ⟨ir, ops, unit, hunit⟩ | ⟨c, -, rfl⟩⟩ := step_cases hstep
  · obtain hmem | ⟨hop, v, hstore⟩ := hunit.mem_cases
    · have hsame : MemSame s t := fun addr => by rw [hmem]
      exact ⟨fun addr _ => hsame addr, by rw [hmem], fun _ _ => hsame⟩
    · obtain ⟨-, hcap, hother, -⟩ := memWrite_ok hstore
      refine ⟨hother, hcap, fun hpush hcall => ?_⟩
      obtain rfl | rfl := hop
      · exact absurd unit.opcode hpush
      · exact absurd unit.opcode hcall
  · exact ⟨fun _ _ => rfl, rfl, fun _ _ _ => rfl⟩

/-- Settles O44: the record is a legal one, and 256 is the one address at the capacity or above that is legal. -/
theorem defaultCapacityFaultAddress : Obligations.DefaultCapacityFaultAddress := by
  intro s t addr hinv hcap hstep hfault
  obtain ⟨hge, hle⟩ : t.mem.capacity ≤ addr ∧ addr ≤ 256 := (stepKeepsInvariant s t hinv hstep).recordLegal _ hfault
  have hkeep := (onlyPushAndCallStore s t hstep).2.1
  omega

/-- The classes that write the register of operand A are the rows that R26 lists. -/
theorem mem_writer_bytes {ir : Byte}
    (h : (decodeOpcode ir).1 = .ldi ∨ (decodeOpcode ir).1 = .alu ∧ ir ≠ 0xA7#8 ∨ ir = 0x46#8) :
    ir ∈ [0x82#8, 0xA0#8, 0xA1#8, 0xA2#8, 0xA3#8, 0xA4#8, 0xA8#8, 0xAA#8, 0xAB#8, 0xAC#8, 0xAD#8, 0x84#8, 0x65#8, 0x66#8,
      0x69#8, 0x46#8] := by
  have hcls : (decodeOpcode ir).1 ≠ .unrecognized := by
    obtain h | ⟨h, -⟩ | rfl := h
    · simp [h]
    · simp [h]
    · decide
  obtain ⟨o, rfl, ho⟩ := code_of_cls hcls
  rw [ho] at h
  revert h
  cases o <;> decide

/-- A step that changes a register is a stack operation on `x[7]`, or writes the register of its operand A (R26). -/
theorem step_reg_changes {s t : State} {r : Fin 8} (hstep : step s = .next t) (h : t.reg r ≠ s.reg r) :
    (r = 7 ∧ ∃ ir, OpcodeAtPc s ir ∧ ir ∈ [0x45#8, 0x46#8, 0x50#8, 0x11#8]) ∨ WritesOperandA s r := by
  obtain ⟨-, ⟨ir, ops, unit, hunit⟩ | ⟨c, -, rfl⟩⟩ := step_cases hstep
  · obtain hsame | ⟨h7, hop⟩ | ⟨hA, hop⟩ := hunit.reg_cases r
    · exact absurd hsame h
    · exact .inl ⟨h7, ir, unit.opcode, hop⟩
    · obtain ⟨hread, hlen⟩ := unit.operandA hA
      exact .inr ⟨ir, unit.opcode, hlen, hread, mem_writer_bytes hop⟩
  · exact absurd rfl h

/-- Settles O54: the two cases of `step_reg_changes`, at register 7. -/
theorem spChangesAreNamed : Obligations.SpChangesAreNamed := by
  intro s t hstep h
  obtain ⟨-, ir, hop, hir⟩ | hwrites := step_reg_changes hstep h
  · simp only [List.mem_cons, List.not_mem_nil, or_false] at hir
    obtain rfl | rfl | rfl | rfl := hir
    · exact .inl hop
    · exact .inr (.inl hop)
    · exact .inr (.inr (.inl hop))
    · exact .inr (.inr (.inr (.inl hop)))
  · exact .inr (.inr (.inr (.inr hwrites)))

/-- Settles O55: of the two cases of `step_reg_changes` the first is register 7. -/
theorem onlyOperandARegisterWritten : Obligations.OnlyOperandARegisterWritten :=
  fun _ _ _ hstep h h7 => (step_reg_changes hstep h).resolve_left fun hsp => h7 hsp.1

/-- R86, the bytes of the print class. -/
theorem mem_print_bytes {ir : Byte} (h : (decodeOpcode ir).1 = .print) : ir = 0x47#8 ∨ ir = 0x48#8 := by
  obtain ⟨o, rfl, ho⟩ := code_of_cls (ir := ir) (by simp [h])
  rw [ho] at h
  revert h
  cases o <;> decide

/-- Settles O57: the event of `Completes.out_cases`, or none. -/
theorem stepEmitsAtMostOneEvent : Obligations.StepEmitsAtMostOneEvent := by
  intro s t hstep
  obtain ⟨-, ⟨ir, ops, unit, hunit⟩ | ⟨c, -, rfl⟩⟩ := step_cases hstep
  · obtain hout | ⟨hcls, e, hout⟩ := hunit.out_cases
    · exact ⟨[], by rw [hout, List.append_nil], Nat.zero_le _, nofun⟩
    · refine ⟨[e], hout, Nat.le_refl _, fun _ => ⟨ir, unit.opcode, ?_⟩⟩
      obtain hprint | hunrec := hcls
      · exact (mem_print_bytes hprint).imp_right .inl
      · exact .inr (.inr hunrec)
  · exact ⟨[], (List.append_nil _).symm, Nat.zero_le _, nofun⟩

end Sys2Proof.Machine
end

section
/-! SUPPORT. Noninterference (R34, R42): a change of the state that an instruction does not read goes through the
instruction. Said once for any such change `f`, then used for another `FL` and for output emitted before. -/

namespace Sys2Proof.Machine

/-- `f` changes no field that the fetch or a register, memory or stack operation reads, and commutes with every update but
that of `FL`. -/
structure Unread (f : State → State) : Prop where
  reg : ∀ s r, (f s).reg r = s.reg r
  pc : ∀ s, (f s).pc = s.pc
  mem : ∀ s, (f s).mem = s.mem
  run : ∀ s, (f s).run = s.run
  fault : ∀ s, (f s).fault = s.fault
  setReg : ∀ s r v, (f s).setReg r v = f (s.setReg r v)
  setPc : ∀ s v, (f s).setPc v = f (s.setPc v)
  setMem : ∀ s m, (f s).setMem m = f (s.setMem m)
  emit : ∀ s e, (f s).emit e = f (s.emit e)
  halt : ∀ s, (f s).halt = f s.halt
  raise : ∀ s c, raise c (f s) = f (raise c s)

section
variable {f : State → State} (hf : Unread f)
include hf

theorem Unread.advance (s : State) (n : Nat) : (f s).advance n = f (s.advance n) := by
  rw [advance_eq, hf.setPc, hf.pc, advance_eq]

theorem Unread.transfer (s : State) (n : Nat) (v : Byte) : (f s).transfer n v = f (s.transfer n v) := by
  rw [transfer_eq, hf.setPc, transfer_eq]

theorem Unread.sp (s : State) : (f s).sp = s.sp := hf.reg s 7

theorem Unread.push (s : State) (v : Byte) : push v (f s) = (push v s).map f := by
  simp only [Machine.push, pushAddr, hf.mem, hf.sp, setSp_eq]
  cases memWrite s.mem (wrap8 (s.sp.toNat - 1)).toNat v with
  | error c => rfl
  | ok m => simp [hf.setMem, hf.setReg, Except.map]

theorem Unread.pop (s : State) : pop (f s) = (pop s).map fun p => (p.1, f p.2) := by
  simp only [Machine.pop, hf.mem, hf.sp, setSp_eq]
  cases memRead s.mem s.sp.toNat with
  | error c => rfl
  | ok v => simp [hf.setReg, Except.map]

/-- The ALU's binary arm, when its select is not the compare. -/
theorem Unread.aluBinary {op : Byte} (hop : op ≠ 0xA7#8) (a b : Byte) (s : State) :
    aluBinary op a b (f s) = (aluBinary op a b s).map f := by
  obtain ⟨ra, rfl⟩ | ha := regByte_or_ge a
  swap
  · rw [aluBinary_geA _ _ _ ha, aluBinary_geA _ _ _ ha, Except.map]
  obtain ⟨rb, rfl⟩ | hb := regByte_or_ge b
  swap
  · rw [aluBinary_geB _ _ _ hb, aluBinary_geB _ _ _ hb, Except.map]
  rw [aluBinary_regByte, aluBinary_regByte, hf.reg, hf.reg]
  cases hout : alu op (s.reg ra) (s.reg rb) with
  | error c => rfl
  | ok out =>
    obtain ⟨v, rfl⟩ := alu_ok_value hop hout
    simp only [Except.map, applyAlu_value, hf.setReg, hf.advance]

theorem Unread.aluUnary {op : Byte} (hop : op ≠ 0xA7#8) (a : Byte) (s : State) :
    aluUnary op a (f s) = (aluUnary op a s).map f := by
  obtain ⟨ra, rfl⟩ | ha := regByte_or_ge a
  · rw [aluUnary_regByte, aluUnary_regByte, hf.reg]
    cases hout : alu op (s.reg ra) 0#8 with
    | error c => rfl
    | ok out =>
      obtain ⟨v, rfl⟩ := alu_ok_value hop hout
      simp only [Except.map, applyAlu_value, hf.setReg, hf.advance]
  · rw [aluUnary_ge _ _ ha, aluUnary_ge _ _ ha, Except.map]

theorem Unread.jump {op : Byte} {s : State} (hcond : cond op (f s).fl = cond op s.fl) (a : Byte) :
    jump op a (f s) = (jump op a s).map f := by
  cases h : cond op s.fl with
  | false => rw [jump_notTaken (hcond.trans h), jump_notTaken h, Except.map, hf.advance]
  | true =>
    obtain ⟨r, rfl⟩ | ha := regByte_or_ge a
    · rw [jump_taken (hcond.trans h), jump_taken h, Except.map, hf.transfer, hf.reg]
    · rw [jump_taken_ge (hcond.trans h) ha, jump_taken_ge h ha, Except.map]

theorem Unread.printRegister (e : Byte → OutputEvent) (a : Byte) (s : State) :
    printRegister e a (f s) = (printRegister e a s).map f := by
  obtain ⟨r, rfl⟩ | ha := regByte_or_ge a
  · rw [printRegister_regByte, printRegister_regByte, Except.map, hf.emit, hf.advance, hf.reg]
  · rw [printRegister_ge _ _ ha, printRegister_ge _ _ ha, Except.map]

theorem Unread.loadImmediate (a imm : Byte) (s : State) : loadImmediate a imm (f s) = (loadImmediate a imm s).map f := by
  obtain ⟨r, rfl⟩ | ha := regByte_or_ge a
  · rw [loadImmediate_regByte, loadImmediate_regByte, Except.map, hf.setReg, hf.advance]
  · rw [loadImmediate_ge _ _ ha, loadImmediate_ge _ _ ha, Except.map]

theorem Unread.pushRegister (a : Byte) (s : State) : pushRegister a (f s) = (pushRegister a s).map f := by
  obtain ⟨r, rfl⟩ | ha := regByte_or_ge a
  · rw [pushRegister_regByte, pushRegister_regByte, hf.push, hf.reg]
    cases Machine.push (s.reg r) s with
    | error c => rfl
    | ok t => simp only [Except.map, hf.advance]
  · rw [pushRegister_ge _ ha, pushRegister_ge _ ha, Except.map]

theorem Unread.popRegister (a : Byte) (s : State) : popRegister a (f s) = (popRegister a s).map f := by
  rw [popRegister_eq, popRegister_eq, hf.pop]
  cases Machine.pop s with
  | error c => rfl
  | ok p =>
    obtain ⟨r, rfl⟩ | ha := regByte_or_ge a
    · simp only [Except.map, Except.bind, regWrite_regByte, hf.setReg, hf.advance]
    · simp only [Except.map, Except.bind, regWrite_ge _ _ ha]

theorem Unread.callRegister (a : Byte) (s : State) : callRegister a (f s) = (callRegister a s).map f := by
  have hret : returnAddress (f s) = returnAddress s := by rw [returnAddress, hf.pc, returnAddress]
  rw [callRegister_eq, callRegister_eq, hf.push, hret]
  cases Machine.push (returnAddress s) s with
  | error c => rfl
  | ok t =>
    obtain ⟨r, rfl⟩ | ha := regByte_or_ge a
    · simp only [Except.map, Except.bind, regRead_regByte, hf.reg, hf.transfer]
    · simp only [Except.map, Except.bind, regRead_ge _ ha]

theorem Unread.returnFromCall (s : State) : returnFromCall (f s) = (returnFromCall s).map f := by
  rw [returnFromCall_eq, returnFromCall_eq, hf.pop]
  cases Machine.pop s with
  | error c => rfl
  | ok p => simp only [Except.map, hf.transfer]

theorem Unread.unrecognized (ir : Byte) (s : State) : unrecognized ir (f s) = f (unrecognized ir s) := by
  simp only [Machine.unrecognized, hf.emit, hf.advance]

/-- Every instruction but CMP, when its condition, if it is a jump, does not see `f`. -/
theorem Unread.pseudocode {i : Instr} {s : State} (hcmp : i.opcode ≠ .cmp)
    (hcond : i.opcode.cls = .jump → cond i.opcode.code (f s).fl = cond i.opcode.code s.fl) :
    pseudocode i (f s) = (pseudocode i s).map f := by
  cases i with
  | cmp => exact absurd rfl hcmp
  | nop => exact congrArg _ (hf.advance s 0)
  | hlt => exact congrArg _ (hf.halt s)
  | iret | int | ld => exact congrArg _ (hf.unrecognized _ s)
  | ret => exact hf.returnFromCall s
  | call a => exact hf.callRegister a s
  | push a => exact hf.pushRegister a s
  | pop a => exact hf.popRegister a s
  | ldi a imm => exact hf.loadImmediate a imm s
  | prn a | pra a => exact hf.printRegister _ a s
  | inc a | dec a | not a => exact hf.aluUnary (by decide) a s
  | jmp a | jeq a | jne a | jgt a | jlt a | jle a | jge a => exact hf.jump (hcond rfl) a
  | add a b | sub a b | mul a b | div a b | mod a b | and a b | or a b | xor a b | shl a b | shr a b | st a b =>
    exact hf.aluBinary (by decide) a b s

theorem Unread.settle {s t : State} {r : Except FaultCause State} (h : settle s r = .next t) :
    settle (f s) (r.map f) = .next (f t) := by
  cases r with
  | ok u =>
    obtain rfl : u = t := Host.Outcome.next.inj h
    rfl
  | error c =>
    obtain rfl : Machine.raise c s = t := Host.Outcome.next.inj h
    exact congrArg Host.Outcome.next (hf.raise s c)

theorem Unread.exec {i : Instr} {s t : State} (hpseudo : Machine.pseudocode i (f s) = (Machine.pseudocode i s).map f)
    (h : exec i s = .next t) : exec i (f s) = .next (f t) := by
  rw [exec_eq_settle] at h ⊢
  rw [hpseudo]
  exact hf.settle h

theorem Unread.fetch (s : State) : fetch (f s) = fetch s := by
  simp only [Machine.fetch, fetchOperands, hf.mem, hf.pc]

/-- A step goes through `f` when the instruction it fetches does. -/
theorem Unread.step {s t : State} (h : step s = .next t)
    (hexec : ∀ i, Machine.fetch s = .ok (.instr i) → Machine.exec i s = .next t → Machine.exec i (f s) = .next (f t)) :
    step (f s) = .next (f t) := by
  have hrun := running_of_step h
  have hrun' := (hf.run s).trans hrun
  obtain ⟨c, hfetch, -⟩ | ⟨ir, hfetch, -⟩ | ⟨i, hfetch, -⟩ := fetch_sound s
  · rw [step_fetchError hrun hfetch] at h
    obtain rfl : Machine.raise c s = t := Host.Outcome.next.inj h
    rw [step_fetchError hrun' ((hf.fetch s).trans hfetch), hf.raise]
  · rw [step_unassigned hrun hfetch] at h
    obtain rfl : Machine.unrecognized ir s = t := Host.Outcome.next.inj h
    rw [step_unassigned hrun' ((hf.fetch s).trans hfetch), execUnassigned, hf.unrecognized, settle_ok]
  · rw [step_instr hrun hfetch] at h
    rw [step_instr hrun' ((hf.fetch s).trans hfetch)]
    exact hexec i hfetch h

/-- A core that is stopped is stopped alike. -/
theorem Unread.step_stopped {s : State} {e : Fault} (h : Machine.step s = .fault e) : Machine.step (f s) = .fault e := by
  cases hrun : s.run with
  | running =>
    obtain ⟨t, ht⟩ := runningStepHasNextState s hrun
    rw [ht] at h
    cases h
  | halted => rw [step_halted ((hf.run s).trans hrun), ← step_halted hrun, h]
  | faulted => rw [step_faulted ((hf.run s).trans hrun), hf.fault, ← step_faulted hrun, h]

end

theorem eq_cmp_of_opcode {i : Instr} (h : i.opcode = .cmp) : ∃ a b, i = .cmp a b := by
  cases i <;> cases h
  exact ⟨_, _, rfl⟩

/-- CMP in two states with the same registers, by what the second makes of a write of `FL`. -/
theorem pseudocode_cmp {s s' : State} {g : State → State} (a b : Byte) (hreg : ∀ r, s'.reg r = s.reg r)
    (hset : ∀ fl, (s'.setFl fl).advance 2 = g ((s.setFl fl).advance 2)) :
    pseudocode (.cmp a b) s' = (pseudocode (.cmp a b) s).map g := by
  change aluBinary 0xA7#8 a b s' = (aluBinary 0xA7#8 a b s).map g
  obtain ⟨ra, rfl⟩ | ha := regByte_or_ge a
  swap
  · rw [aluBinary_geA _ _ _ ha, aluBinary_geA _ _ _ ha, Except.map]
  obtain ⟨rb, rfl⟩ | hb := regByte_or_ge b
  swap
  · rw [aluBinary_geB _ _ _ hb, aluBinary_geB _ _ _ hb, Except.map]
  rw [aluBinary_regByte, aluBinary_regByte, hreg, hreg, alu_cmp]
  exact congrArg Except.ok (hset _)

/-! ### Output emitted before -/

/-- The state that has emitted `before` first. -/
def State.emittedFirst (before : List OutputEvent) (s : State) : State := { s with out := before ++ s.out }

theorem unread_emittedFirst (before : List OutputEvent) : Unread (State.emittedFirst before) where
  reg _ _ := rfl
  pc _ := rfl
  mem _ := rfl
  run _ := rfl
  fault _ := rfl
  setReg _ _ _ := rfl
  setPc _ _ := rfl
  setMem _ _ := rfl
  emit s e := by simp [State.emit, State.emittedFirst]
  halt _ := rfl
  raise _ _ := rfl

theorem emittedFirst_pseudocode (before : List OutputEvent) (i : Instr) (s : State) :
    pseudocode i (s.emittedFirst before) = (pseudocode i s).map (State.emittedFirst before) := by
  by_cases hcmp : i.opcode = .cmp
  · obtain ⟨a, b, rfl⟩ := eq_cmp_of_opcode hcmp
    exact pseudocode_cmp (s := s) (s' := s.emittedFirst before) a b (fun _ => rfl) fun _ => rfl
  · exact (unread_emittedFirst before).pseudocode hcmp fun _ => rfl

/-- Settles O58: every instruction goes through the output emitted before. -/
theorem outputNeverRead : Obligations.OutputNeverRead := fun s before =>
  have hf := unread_emittedFirst before
  ⟨fun _ h => hf.step h fun i _ => hf.exec (emittedFirst_pseudocode before i s), fun _ => hf.step_stopped⟩

/-! ### Another `FL` -/

theorem unread_setFl (fl : Byte) : Unread (State.setFl · fl) where
  reg _ _ := rfl
  pc _ := rfl
  mem _ := rfl
  run _ := rfl
  fault _ := rfl
  setReg _ _ _ := rfl
  setPc _ _ := rfl
  setMem _ _ := rfl
  emit _ _ := rfl
  halt _ := rfl
  raise _ _ := rfl

theorem unit_of_fetch {s : State} {i : Instr} (h : fetch s = .ok (.instr i)) : UnitAtPc s i.opcode.code i.operandBytes := by
  obtain ⟨c, hf, -⟩ | ⟨ir, hf, -⟩ | ⟨j, hf, unit⟩ := fetch_sound s
  all_goals
    rw [h] at hf
    cases hf
  exact unit

/-- CMP does not read `FL`: with another one it writes the same, or raises the same record and keeps it. -/
theorem exec_cmp_setFl {a b fl : Byte} {s t : State} (hrun : s.run = .running) (h : exec (.cmp a b) s = .next t) :
    (t.run = .faulted → exec (.cmp a b) (s.setFl fl) = .next (t.setFl fl)) ∧
      (t.run ≠ .faulted → exec (.cmp a b) (s.setFl fl) = .next t) := by
  have hpseudo : pseudocode (.cmp a b) (s.setFl fl) = (pseudocode (.cmp a b) s).map id :=
    pseudocode_cmp a b (fun _ => rfl) fun _ => rfl
  have hsettles := pseudocode_settles (.cmp a b) s
  rw [exec_eq_settle, hpseudo]
  obtain hok | ⟨c, herr, rfl⟩ := exec_next h
  · rw [hok] at hsettles ⊢
    exact ⟨fun ht => absurd ht (hsettles.run_ne_faulted hrun), fun _ => rfl⟩
  · rw [herr]
    exact ⟨fun _ => rfl, fun ht => absurd rfl ht⟩

theorem code_injective {o o' : Opcode} (h : o.code = o'.code) : o = o' := by
  have := ofByte?_code o
  rw [h, ofByte?_code] at this
  exact (Option.some.inj this).symm

/-- The jump that is not one of the six conditional ones is JMP, whose condition is constant. -/
theorem cond_of_notConditional {o : Opcode} (hcls : o.cls = .jump)
    (h : o.code ∉ [0x55#8, 0x56#8, 0x57#8, 0x58#8, 0x59#8, 0x5A#8]) (fl fl' : Byte) :
    cond o.code fl = cond o.code fl' := by
  have hjmp : o = .jmp := by
    revert hcls h
    cases o <;> decide
  rw [hjmp]
  rfl

/-- Settles O52: a CMP by `exec_cmp_setFl`, any other instruction by `Unread`. -/
theorem flagsReadOnlyByJumps : Obligations.FlagsReadOnlyByJumps := by
  intro s fl hno
  have hf := unread_setFl fl
  refine ⟨fun t h => ?_, fun e => hf.step_stopped⟩
  have hrun := running_of_step h
  refine ⟨fun hcase => hf.step h fun i hfetch hexec => ?_, fun hcmp ht => ?_⟩
  · have hop := (unit_of_fetch hfetch).opcode
    by_cases hcmp : i.opcode = .cmp
    · obtain ⟨a, b, rfl⟩ := eq_cmp_of_opcode hcmp
      exact (exec_cmp_setFl hrun hexec).1 (hcase.resolve_left (not_not.2 hop))
    · exact hf.exec (hf.pseudocode hcmp fun hcls => cond_of_notConditional hcls (hno _ hop) _ _) hexec
  · obtain ⟨c, hfetch, -⟩ | ⟨ir, hfetch, hnone, unit⟩ | ⟨i, hfetch, unit⟩ := fetch_sound s
    · rw [step_fetchError hrun hfetch] at h
      cases h
      exact absurd rfl ht
    · rw [unit.opcode.unique hcmp] at hnone
      cases hnone
    · have hi : i.opcode = .cmp := code_injective (unit.opcode.unique hcmp)
      obtain ⟨a, b, rfl⟩ := eq_cmp_of_opcode hi
      rw [step_instr hrun hfetch] at h
      exact (step_instr (s := s.setFl fl) hrun ((hf.fetch s).trans hfetch)).trans ((exec_cmp_setFl hrun h).2 ht)

end Sys2Proof.Machine
end

section
/-! SUPPORT. Two runs: a PUSH into the next opcode cell (spec/20_memory.md R68), and zeroed memory (spec/41_engine.md R141,
R149). -/

namespace Sys2Proof.Machine

/-- An instruction of one byte, when that byte is at `pc`. -/
theorem step_of_opcode {s : State} {i : Instr} (hrun : s.run = .running) (hops : i.operandBytes = [])
    (h : OpcodeAtPc s i.opcode.code) : step s = exec i s := by
  refine stepRunsDecodedInstruction s i hrun fun k hk => ?_
  obtain rfl : k = 0 := by simpa [encode, hops] using hk
  exact h

/-- Settles O59: the cell the PUSH stores in is the one its advance goes to. -/
theorem stackWriteIsFetched : Obligations.StackWriteIsFetched := by
  intro s r hrun hwf hbytes hnext hcap
  obtain ⟨t, hpush, form, hpc⟩ := exec_push_inside r hwf hcap
  have hlt := pushAddr_lt s
  have hpc' : t.pc.toNat = pushAddr s := by
    rw [hpc, hnext]
    exact pc_add_toNat (n := 2) (by omega)
  have hop : OpcodeAtPc t (s.reg r) := by
    rw [OpcodeAtPc, hpc']
    exact form.stored
  have hrun' : t.run = .running := form.status.1.trans hrun
  refine ⟨t, (stepRunsDecodedInstruction s (.push (regByte r)) hrun hbytes).trans hpush, hop, fun hhlt => ?_⟩
  rw [hhlt] at hop
  exact ⟨t.halt, step_of_opcode (i := .hlt) hrun' rfl hop, rfl, hpc'⟩

/-- Over `n` cells that hold 0 a run is `n` NOPs. -/
theorem run_zeros {s : State} {n : Nat} (hrun : s.run = .running) (hpc : s.pc.toNat + n < 512)
    (hzero : ∀ addr, s.pc.toNat ≤ addr → addr < s.pc.toNat + n → memRead s.mem addr = .ok 0x00#8) (k : Nat) :
    Sys2Proof.core.run (n + k) s = Sys2Proof.core.run k (s.setPc (BitVec.ofNat 9 (s.pc.toNat + n))) := by
  induction n generalizing s with
  | zero =>
    have hself : s.setPc (BitVec.ofNat 9 (s.pc.toNat + 0)) = s := by simp [State.setPc]
    rw [Nat.zero_add, hself]
  | succ n ih =>
    have hstep : step s = .next (s.advance 0) := step_of_opcode (i := .nop) hrun rfl (hzero _ (by omega) (by omega))
    have hpc' : (s.advance 0).pc.toNat = s.pc.toNat + 1 := pc_add_toNat (by omega)
    have hrest := ih (s := s.advance 0) hrun (by omega) fun addr _ _ => hzero addr (by omega) (by omega)
    rw [Nat.succ_add, run_succ _ hstep, hrest, hpc', Nat.add_assoc, Nat.add_comm 1]
    rfl

/-- Settles O60: NOPs to the end of memory, where the fetch raises. -/
theorem zeroMemoryRunsToTheEnd : Obligations.ZeroMemoryRunsToTheEnd := by
  intro s hrun hcap hpc hzero
  have hend : s.pc.toNat + (s.mem.capacity - s.pc.toNat) = s.mem.capacity := by omega
  have hrunEnd := run_zeros (n := s.mem.capacity - s.pc.toNat) hrun (by omega) fun addr hge hlt =>
    hzero addr hge (by omega)
  rw [hend] at hrunEnd
  refine ⟨hrunEnd 0, (hrunEnd 1).trans ?_⟩
  have hpcEnd : (BitVec.ofNat 9 s.mem.capacity).toNat = s.mem.capacity := by
    rw [BitVec.toNat_ofNat]
    omega
  have hfetch := fetch_outside (s := s.setPc (BitVec.ofNat 9 s.mem.capacity)) hpcEnd.ge
  rw [setPc_pc, hpcEnd] at hfetch
  exact run_succ 0 (step_fetchError (s := s.setPc _) hrun hfetch)

end Sys2Proof.Machine
end
